-- ==== Sys2Proof/Word.lean ====
section
/-! DEFINITION. The bit patterns the spec names (R9, R53): a byte, a sample, the input tokens of the two channels, a
cause code. -/

namespace Sys2Proof

/-- One byte of the stream: the unit every channel of the Transport moves (R12, R53). -/
abbrev Byte := BitVec 8

/-- One 16-bit pattern: a sample slot of either buffer, or a `sampleCount` (R21, R31, R34). -/
abbrev Sample := BitVec 16

/-- Format STOK, `{s_kind, s_data[15:0]}` (R75). -/
abbrev SToken := BitVec 17

/-- Format RXTOK, `{rx_kind[1:0], rx_data[7:0]}` (R76). -/
abbrev RxToken := BitVec 10

/-- A fault's cause code (R35, R151). -/
abbrev Cause := BitVec 3

end Sys2Proof
end

