-- ==== Sys2Proof/Config.lean ====
section
/-! DEFINITION. What is fixed before the hardware starts (R7): the parameters `N`, `MAGIC0`, `MAGIC1`, the capacity of
the decoder's buffer, the cause codes (R151), and the free values of ports whose value the spec leaves open (93 U7). -/

namespace Sys2Proof.Config

/-- The parameters of R7, with the constraints R7 puts on them: a set of parameters with equal marker bytes, which 93 U5
says to refuse, cannot be written. -/
structure Params where
  /-- `N`, `MAX_FRAME_SAMPLES`. -/
  n : Nat
  /-- `MAGIC0`, the first marker byte. -/
  magic0 : Byte
  /-- `MAGIC1`, the second marker byte. -/
  magic1 : Byte
  n_pos : 1 ≤ n
  n_le : n ≤ 65535
  magic_ne : magic0 ≠ magic1

/-- `L = 4 + 2*N`, the length of one emitted frame in bytes (R7, R74). -/
def Params.frameLen (p : Params) : Nat := 4 + 2 * p.n

/-- The parameter values of this hardware (R7). -/
def params : Params where
  n := 512
  magic0 := 0xAA
  magic1 := 0x55
  n_pos := by decide
  n_le := by decide
  magic_ne := by decide

/-- `DEC_CAP`, the capacity of `dec_buf` in samples (R7, R34). -/
def decCap : Nat := 65535

/-- Cause code 1, TRANSPORT_TIMEOUT (R151). -/
def causeTransportTimeout : Cause := 1
/-- Cause code 2, TRANSPORT_EOS (R151). -/
def causeTransportEos : Cause := 2
/-- Cause code 3, SHORT_TIMEOUT (R151). -/
def causeShortTimeout : Cause := 3
/-- Cause code 4, SHORT_EOS (R151). -/
def causeShortEos : Cause := 4

/-- FREE VALUE (log 10): `tx_data` while `tx_valid = 0` (R26, 93 U7), at the draw counter's value. -/
opaque freeTxData : Nat → Byte
/-- FREE VALUE (log 10): `o_rdata` where it is not meaningful (R36, D32, 93 U7), at the draw counter and the address. -/
opaque freeRdata : Nat → BitVec 16 → Sample
/-- FREE VALUE (log 10): `o_count` while `o_kind` is not FRAME (R36, 93 U7), at the draw counter's value. -/
opaque freeCount : Nat → BitVec 16
/-- FREE VALUE (log 10): `o_cause` while `o_kind` is not FAULT (R36, 93 U7), at the draw counter's value. -/
opaque freeCause : Nat → Cause

end Sys2Proof.Config
end

