-- ==== Sys2Proof/Machine/Kinds.lean ====
section
/-! DEFINITION. The named values of the machine: phases, pending kinds, events, and what the environment can offer at the
ports. -/

namespace Sys2Proof.Machine

/-- `enc_phase` (R24). The code 3 is never taken, so it has no constructor (R79 e). -/
inductive EncPhase where
  | accum | emit | halt
  deriving DecidableEq, Repr

/-- `rx_phase` (R30). The codes 5 to 7 are never taken (R79 e). -/
inductive RxPhase where
  | seek1 | seek2 | cntLo | cntHi | payload
  deriving DecidableEq, Repr

/-- The source's SyncState, a view of `rx_phase` (R30). -/
inductive SyncState where
  | seekingFirstMagicByte | seekingSecondMagicByte
  deriving DecidableEq, Repr

/-- `o_pend` (R35). The code 3 is never taken (R79 e). -/
inductive Pend where
  | none | frame | fault
  deriving DecidableEq, Repr

/-- What RX delivers on channel `o` (R77): a frame with its count and samples by value, or a fault's cause. -/
inductive Event where
  | frame (count : BitVec 16) (samples : List Int)
  | fault (cause : Cause)
  deriving DecidableEq, Repr

/-- One thing the environment offers at the blocks' ports: an item of the script of R80, as the word that stands on the
port. -/
inductive Offer where
  /-- A token on `s` (R75). -/
  | stok (w : SToken)
  /-- `tx_ready`: the Transport takes a byte. -/
  | txReady
  /-- A token on `rx` (R76). -/
  | rxtok (w : RxToken)
  /-- `o_ready`: the consumer takes an event. -/
  | oReady
  /-- `enc_rst` (R180). -/
  | encRst
  /-- `rx_rst` (R180). -/
  | rxRst
  /-- The pseudo-item `FRAME[..]` on `rx` (R81): the bytes of one frame, in transmission order (R71). -/
  | frame (bytes : List Byte)
  deriving DecidableEq, Repr

/-- The formats of the operation table. -/
inductive Format where
  | wire | stok | txbyte | rxtok | oevt | rst
  deriving DecidableEq, Repr

end Sys2Proof.Machine
end

