-- ==== Sys2Proof/Machine/Operands.lean ====
section
/-! DEFINITION. Every operand form of the spec: the fields of the two token formats (R75, R76), the assembly of the count
and of a sample from bytes (R72, R73), the signed reading of a pattern (R9), and the frame as a list of bytes (R82). -/

namespace Sys2Proof.Machine

/-- `w[7:0]`. -/
def lowByte (w : BitVec 16) : Byte := w.extractLsb' 0 8
/-- `w[15:8]`. -/
def highByte (w : BitVec 16) : Byte := w.extractLsb' 8 8
/-- `{hi, lo}`: two bytes as one 16-bit pattern, `hi` more significant (R9, R72, R73). -/
def word16 (hi lo : Byte) : BitVec 16 := hi ++ lo

/-- `s_kind` of an STOK token (R75). -/
def sKind (w : SToken) : BitVec 1 := w.extractLsb' 16 1
/-- `s_data` of an STOK token (R75). -/
def sData (w : SToken) : Sample := w.extractLsb' 0 16
/-- `{s_kind, s_data}` (R75). -/
def mkSToken (kind : BitVec 1) (data : Sample) : SToken := kind ++ data

/-- `rx_kind` of an RXTOK token (R76). -/
def rxKind (w : RxToken) : BitVec 2 := w.extractLsb' 8 2
/-- `rx_data` of an RXTOK token (R76). -/
def rxData (w : RxToken) : Byte := w.extractLsb' 0 8
/-- `{rx_kind, rx_data}` (R76). -/
def mkRxToken (kind : BitVec 2) (data : Byte) : RxToken := kind ++ data

/-- Whether the synchronizer owns the stream in a phase (R30, R110). -/
def RxPhase.seeking (ph : RxPhase) : Bool :=
  match ph with
  | .seek1 | .seek2 => true
  | .cntLo | .cntHi | .payload => false

/-- `toS16` (R9): the signed integer of a pattern, two's complement (log 11). -/
def toS16 (w : Sample) : Int := if w.toNat < 32768 then (w.toNat : Int) else (w.toNat : Int) - 65536
/-- `toU16` (R9), for an integer of `-32768 .. 32767`. -/
def toU16 (i : Int) : Sample := BitVec.ofNat 16 (if 0 ≤ i then i else i + 65536).toNat

/-- The two payload bytes of each sample, low byte first, in order (R50, R73). -/
def payloadBytes : List Sample → List Byte
  | [] => []
  | w :: rest => lowByte w :: highByte w :: payloadBytes rest

/-- `EncodeFrame(K, s)` with `K` the length of `s`, on patterns (R82). -/
def encodeFrame (p : Config.Params) (samples : List Sample) : List Byte :=
  p.magic0 :: p.magic1 :: lowByte (BitVec.ofNat 16 samples.length) :: highByte (BitVec.ofNat 16 samples.length)
    :: payloadBytes samples

/-- The patterns of the samples a payload carries (R73, R82): element `j` is `{p_(2j+1), p_(2j)}`. -/
def decodePatterns : List Byte → List Sample
  | lo :: hi :: rest => word16 hi lo :: decodePatterns rest
  | [_] => []
  | [] => []

/-- `DecodePayload` (R82): the signed samples of a payload. -/
def decodePayload (bytes : List Byte) : List Int := (decodePatterns bytes).map toS16

/-- An `rx` BYTE token (R76, `rx_kind = 0`). -/
def byteToken (b : Byte) : RxToken := mkRxToken 0 b

end Sys2Proof.Machine
end

