-- ==== Sys2Proof/Syntax.lean ====
section
/-! DEFINITION. The instructions: one constructor for each row of spec/opcode_table.json. The hardware's instructions are
its operations (R2, R70, R78). An operand the spec says is ignored is kept as data, so that no bit of an input word is
lost in decoding. -/

namespace Sys2Proof

/-- The rows of the operation table (R78), with the format WIRE and the reserved pattern `rx_kind = 3`. -/
inductive Instr where
  /-- WIRE (R71): one frame, by the patterns of its samples. -/
  | wire (samples : List Sample)
  /-- OBSERVE (R92): `v` is `s_data`. -/
  | observe (v : Sample)
  /-- ACQFAULT (R94): `x` is `s_data`, ignored. -/
  | acqFault (x : BitVec 16)
  /-- EMIT (R93). -/
  | emit
  /-- ENC_RESET (R181). -/
  | encReset
  /-- SEEK1.BYTE (R111). -/
  | seek1Byte (b : Byte)
  /-- SEEK2.BYTE (R112). -/
  | seek2Byte (b : Byte)
  /-- SEEK.TIMEOUT (R113): `x` is `rx_data`, ignored. -/
  | seekTimeout (x : Byte)
  /-- SEEK.EOS (R114): `x` is `rx_data`, ignored. -/
  | seekEos (x : Byte)
  /-- CNTLO.BYTE (R131). -/
  | cntLoByte (b : Byte)
  /-- CNTHI.BYTE (R132). -/
  | cntHiByte (b : Byte)
  /-- PAYLOAD.BYTE (R133). -/
  | payloadByte (b : Byte)
  /-- DEC.TIMEOUT (R134): `x` is `rx_data`, ignored. -/
  | decTimeout (x : Byte)
  /-- DEC.EOS (R135): `x` is `rx_data`, ignored. -/
  | decEos (x : Byte)
  /-- HANDOFF (R137). -/
  | handoff
  /-- RX_RESET (R182). -/
  | rxReset
  /-- RESERVED.RXKIND3 (R79 c): `x` is `rx_data`. -/
  | reservedRxKind3 (x : Byte)
  deriving DecidableEq, Repr

end Sys2Proof
end

