-- ==== Sys2Proof/WellFormed.lean ====
section
/-! DEFINITION. Which terms of `Instr` stand for something the hardware's formats can carry. -/

namespace Sys2Proof

/-- A frame's count field has 16 bits, so a frame carries at most 65535 samples (R71, R72, R82); every other operand's
width is its type's. A frame of no samples is well-formed here: RX accepts it (R79 b), though ENC never sends it. -/
def Instr.wellFormed : Instr → Bool
  | .wire samples => decide (samples.length ≤ 65535)
  | .observe _ | .acqFault _ | .emit | .encReset | .seek1Byte _ | .seek2Byte _ | .seekTimeout _ | .seekEos _
  | .cntLoByte _ | .cntHiByte _ | .payloadByte _ | .decTimeout _ | .decEos _ | .handoff | .rxReset
  | .reservedRxKind3 _ => true

end Sys2Proof
end

