-- ==== Sys2Proof/Decode.lean ====
section
/-! DEFINITION. The decoder and the encoder. An operation is selected by the channel a word stands on, the word, and for
an `rx` token the phase of RX (R70, R78); so the decoder takes the phase and the offer. From raw bytes it is total and
rejects by name. -/

namespace Sys2Proof

open Machine

/-- Why bytes are no word of a format. -/
inductive DecodeError where
  /-- Not the number of bytes the format has. -/
  | wrongLength
  /-- A bit above the format's width is 1. -/
  | strayBits
  /-- A WIRE frame of fewer than four bytes (R71). -/
  | headerTooShort
  /-- The first two bytes of a WIRE frame are not the marker (R71). -/
  | notTheMarker
  /-- The payload of a WIRE frame does not have `2 * sampleCount` bytes (R71, R74). -/
  | wrongPayloadLength
  /-- An RST word of 0: no reset is asserted (R180). -/
  | resetNotAsserted
  /-- An OEVT word whose `o_kind` is not FRAME or FAULT: nothing is delivered (R77). -/
  | noEvent
  deriving DecidableEq, Repr

/-- The row an STOK token selects (R75): all 2^17 patterns have a meaning. -/
def decodeS (w : SToken) : Instr :=
  if sKind w = 0 then .observe (sData w) else .acqFault (sData w)

/-- The row a BYTE token selects in each phase (R78). -/
def decodeByte (ph : RxPhase) (b : Byte) : Instr :=
  match ph with
  | .seek1 => .seek1Byte b
  | .seek2 => .seek2Byte b
  | .cntLo => .cntLoByte b
  | .cntHi => .cntHiByte b
  | .payload => .payloadByte b

/-- The row an RXTOK token selects in each phase (R76, R78, R79 c). -/
def decodeRx (ph : RxPhase) (w : RxToken) : Instr :=
  if rxKind w = 0 then decodeByte ph (rxData w)
  else if rxKind w = 1 then
    if ph.seeking then .seekTimeout (rxData w) else .decTimeout (rxData w)
  else if rxKind w = 2 then
    if ph.seeking then .seekEos (rxData w) else .decEos (rxData w)
  else .reservedRxKind3 (rxData w)

/-- The samples of a WIRE frame given as its bytes (R71, R72, R73). -/
def decodeFrame (p : Config.Params) : List Byte → Except DecodeError (List Sample)
  | m0 :: m1 :: l :: h :: payload =>
    if m0 = p.magic0 ∧ m1 = p.magic1 then
      if payload.length = 2 * (word16 h l).toNat then .ok (decodePatterns payload) else .error .wrongPayloadLength
    else .error .notTheMarker
  | _ => .error .headerTooShort

/-- The instruction an offer selects in a phase of RX, over any parameters (R7): the operation map (R78). -/
def decodeFor (p : Config.Params) (ph : RxPhase) : Offer → Except DecodeError Instr
  | .stok w => .ok (decodeS w)
  | .txReady => .ok .emit
  | .rxtok w => .ok (decodeRx ph w)
  | .oReady => .ok .handoff
  | .encRst => .ok .encReset
  | .rxRst => .ok .rxReset
  | .frame bytes => (decodeFrame p bytes).map Instr.wire

/-- The decoder of this hardware. -/
def decode (ph : RxPhase) (o : Offer) : Except DecodeError Instr := decodeFor Config.params ph o

/-- The number whose bytes, low byte first, are given. -/
def bytesToNat : List Byte → Nat
  | [] => 0
  | b :: rest => b.toNat + 256 * bytesToNat rest

/-- The low `k` bytes of a number, low byte first. -/
def natToBytes : Nat → Nat → List Byte
  | 0, _ => []
  | k + 1, w => BitVec.ofNat 8 w :: natToBytes k (w / 256)

/-- The number given by `k` bytes, which must be less than `2^width`. -/
def wordOfBytes (k width : Nat) (bytes : List Byte) : Except DecodeError Nat :=
  if bytes.length = k then
    if bytesToNat bytes < 2 ^ width then .ok (bytesToNat bytes) else .error .strayBits
  else .error .wrongLength

/-- The offer that bytes of a format stand for, total on any bytes. The word of TXBYTE and OEVT is an output, so it only
says which handshake takes place (spec/opcode_table.json, rows EMIT and HANDOFF); a format RST does not say which block it
resets, and stands here for `enc_rst` (log 7). -/
def offerOfBytes (f : Format) (bytes : List Byte) : Except DecodeError Offer :=
  match f with
  | .wire => .ok (.frame bytes)
  | .stok => (wordOfBytes 3 17 bytes).map fun w => .stok (BitVec.ofNat 17 w)
  | .txbyte => (wordOfBytes 1 8 bytes).map fun _ => .txReady
  | .rxtok => (wordOfBytes 2 10 bytes).map fun w => .rxtok (BitVec.ofNat 10 w)
  | .oevt => (wordOfBytes 3 21 bytes).bind fun w =>
      if w / 2 ^ 19 = 1 ∨ w / 2 ^ 19 = 2 then .ok .oReady else .error .noEvent
  | .rst => (wordOfBytes 1 1 bytes).bind fun w => if w = 1 then .ok .encRst else .error .resetNotAsserted

/-- The decoder on the bytes of a format, in a phase of RX. -/
def decodeBytes (f : Format) (ph : RxPhase) (bytes : List Byte) : Except DecodeError Instr :=
  (offerOfBytes f bytes).bind (decode ph)

/-- The encoder, over any parameters (R7): what stands on the ports when the environment has an operation done (R75, R76,
R78, R82). -/
def encodeFor (p : Config.Params) : Instr → Offer
  | .wire samples => .frame (encodeFrame p samples)
  | .observe v => .stok (mkSToken 0 v)
  | .acqFault x => .stok (mkSToken 1 x)
  | .emit => .txReady
  | .encReset => .encRst
  | .seek1Byte b => .rxtok (mkRxToken 0 b)
  | .seek2Byte b => .rxtok (mkRxToken 0 b)
  | .seekTimeout x => .rxtok (mkRxToken 1 x)
  | .seekEos x => .rxtok (mkRxToken 2 x)
  | .cntLoByte b => .rxtok (mkRxToken 0 b)
  | .cntHiByte b => .rxtok (mkRxToken 0 b)
  | .payloadByte b => .rxtok (mkRxToken 0 b)
  | .decTimeout x => .rxtok (mkRxToken 1 x)
  | .decEos x => .rxtok (mkRxToken 2 x)
  | .handoff => .oReady
  | .rxReset => .rxRst
  | .reservedRxKind3 x => .rxtok (mkRxToken 3 x)

/-- The encoder of this hardware. -/
def encode (i : Instr) : Offer := encodeFor Config.params i

/-- Whether a phase of RX is one that an operation's row lists (R78); an operation that no `rx` token selects has no such
condition. -/
def Instr.selectedIn (i : Instr) (ph : RxPhase) : Bool :=
  match i with
  | .seek1Byte _ => ph = .seek1
  | .seek2Byte _ => ph = .seek2
  | .cntLoByte _ => ph = .cntLo
  | .cntHiByte _ => ph = .cntHi
  | .payloadByte _ => ph = .payload
  | .seekTimeout _ | .seekEos _ => ph.seeking
  | .decTimeout _ | .decEos _ => !ph.seeking
  | .wire _ | .observe _ | .acqFault _ | .emit | .encReset | .handoff | .rxReset | .reservedRxKind3 _ => true

/-- The format of a word the operation table numbers: by its length in bytes, and where two formats have that length by
the fixed bits of their rows (log 7). One byte is RST when it is 1, else TXBYTE; two bytes are WIRE when they are the
marker, else RXTOK; three bytes are STOK when they fit its 17 bits, else OEVT; any other length is WIRE. -/
def tableFormat (nbits w : Nat) : Format :=
  if nbits ≤ 8 then (if w = 1 then .rst else .txbyte)
  else if nbits ≤ 16 then (if w = 0x55AA then .wire else .rxtok)
  else if nbits ≤ 24 then (if w < 2 ^ 17 then .stok else .oevt)
  else .wire

/-- The bytes of a word of the operation table as the stream carries them, low byte first (R50). A WIRE row's word is its
header, or the start of it, and what the instruction has above `nbits` is zero: the rest of the header, and a payload of
`2 * sampleCount` bytes. -/
def tableBytes (nbits w : Nat) : List Byte :=
  match tableFormat nbits w with
  | .wire => natToBytes 4 w ++ List.replicate (2 * (w / 65536 % 65536)) 0
  | .stok | .txbyte | .rxtok | .oevt | .rst => natToBytes ((nbits + 7) / 8) w

/-- The offer a word of the operation table stands for; bytes that are no word of their format stand as a frame, which
the decoder then rejects by name. -/
def tableOffer (nbits w : Nat) : Offer :=
  match offerOfBytes (tableFormat nbits w) (tableBytes nbits w) with
  | .ok o => o
  | .error _ => .frame (tableBytes nbits w)

/-- The instruction the decoder reads from a word of spec/opcode_table.json, in the phase RX has after reset (R182). Five
rows share the BYTE word and two the RST word: there the phase and the choice of `tableFormat` decide (log 7). -/
def decodeTableWord (nbits w : Nat) : Option Instr :=
  (decodeBytes (tableFormat nbits w) .seek1 (tableBytes nbits w)).toOption

end Sys2Proof
end

