-- ==== Sys2Proof/Machine/State.lean ====
section
/-! DEFINITION. The whole state of the hardware (R20), with what the environment offers and the traces of what the blocks
put out (R42); why a step stops; the state after reset (R183). -/

namespace Sys2Proof.Machine

/-- The slots of a sample buffer, as (index, pattern) pairs in one canonical form (`Memory.wf`). The hardware has no
addressable memory (R40); its buffers are accessed one 16-bit slot at a time (R53). -/
abbrev Memory := List (Nat × Sample)

/-- What a slot that nothing has written reads as: the spec gives it no value (R183, 93 U6); DESIGN CHOICE, unsafe
(log 2). -/
def unwrittenSlot : Sample := 0

/-- The canonical form: indices strictly rising, and no entry equal to what an unlisted slot reads as. -/
abbrev Memory.wf (m : Memory) : Prop :=
  (m.map Prod.fst).Pairwise (· < ·) ∧ ∀ c ∈ m, c.2 ≠ unwrittenSlot

/-- The registers of ENC and RX (R20); the environment's offers; the output traces. ENC and RX share none of it (R3). -/
structure State where
  /-- `enc_buf` (R21). -/
  encBuf : Memory
  /-- `enc_wr` (R22). -/
  encWr : Nat
  /-- `enc_rd` (R23). -/
  encRd : Nat
  /-- `enc_phase` (R24). -/
  encPhase : EncPhase
  /-- `rx_phase` (R30). -/
  rxPhase : RxPhase
  /-- `dec_count` (R31). -/
  decCount : BitVec 16
  /-- `dec_lo` (R32). -/
  decLo : Byte
  /-- `dec_idx` (R33). -/
  decIdx : Nat
  /-- `dec_buf` (R34). -/
  decBuf : Memory
  /-- `o_pend` (R35). -/
  oPend : Pend
  /-- `o_cause` (R35). -/
  oCause : Cause
  /-- What the environment offers, in order (R42, R80, log 4): an input, not hardware state. -/
  script : List Offer
  /-- The bytes ENC has put on `tx`, oldest first (R10, R42): a trace no rule reads. -/
  txOut : List Byte
  /-- The events RX has delivered on `o`, oldest first (R10, R42): a trace no rule reads. -/
  oOut : List Event
  /-- The model's own field: the count at which the free values of unspecified ports are drawn (93 U7, log 10). -/
  draws : Nat
  deriving DecidableEq, Repr

/-- Why the machine stops: only on an access to storage that does not exist. -/
inductive Fault where
  /-- OBSERVE or EMIT at a slot of `enc_buf` that does not exist, index `N` or above (R21, R40): raised by `observe` and
  `emit`. Safe, and unreachable from any state that meets the invariants of R25 (log 8). -/
  | noSuchEncSlot (index : Nat)
  /-- PAYLOAD.BYTE at a slot of `dec_buf` that does not exist, index 65535 or above (R34, R40): raised by `payloadByte`.
  Safe, and unreachable from any state that meets the invariants of R38 (log 8). -/
  | noSuchDecSlot (index : Nat)
  deriving DecidableEq, Repr

/-- Why an input has no meaning. -/
inductive Refusal where
  /-- An instruction without a meaning yet: raised by an arm of `exec` only. Safe. -/
  | notModelled (mnemonic : String)
  /-- `rx_kind = 3`, to which the spec gives no meaning and which a model refuses (R79 c, 93 U3, D30): raised by
  `reservedRxKind3`. Safe. -/
  | reservedRxKind
  /-- A frame of more samples than the 16-bit count field can say (R71, R82), which no decoding gives: raised by `wire`.
  Safe. -/
  | frameTooLong
  /-- A FRAME item of the script whose bytes are no frame (R71, R81): raised by `step`. Safe: such bytes can be offered as
  BYTE tokens. -/
  | notAFrame (why : DecodeError)
  deriving DecidableEq, Repr

/-- The answer of a meaning. -/
abbrev Result := Host.Outcome State Fault Refusal

/-- The machine right after reset (R181, R182, R183). `enc_phase`, `enc_wr`, `enc_rd`, `rx_phase` and `o_pend` are the
spec's; the registers R183 leaves unspecified are 0 (DESIGN CHOICE, log 1 and 2). -/
def State.reset : State where
  encBuf := []
  encWr := 0
  encRd := 0
  encPhase := .accum
  rxPhase := .seek1
  decCount := 0
  decLo := 0
  decIdx := 0
  decBuf := []
  oPend := .none
  oCause := 0
  script := []
  txOut := []
  oOut := []
  draws := 0

end Sys2Proof.Machine
end

