-- ==== Sys2Proof/Machine/Ops.lean ====
section
/-! DEFINITION. The named operations over the buffers and the registers: reading and writing a slot, the primitives
`TxPut`, `Emit`, `Pend` and `raise` of R10, taking a fault (R153, R155), and the guard of an RX token operation. -/

namespace Sys2Proof.Machine

/-- Reading one slot (R10, `buf[i]`). -/
def Memory.read : Memory → Nat → Sample
  | [], _ => unwrittenSlot
  | (a, w) :: rest, i => if i = a then w else Memory.read rest i

/-- Writing one slot (R10, `buf[i] <- v`), keeping the canonical form. -/
def Memory.write : Memory → Nat → Sample → Memory
  | [], i, v => if v = unwrittenSlot then [] else [(i, v)]
  | (a, w) :: rest, i, v =>
    if i < a then (if v = unwrittenSlot then (a, w) :: rest else (i, v) :: (a, w) :: rest)
    else if i = a then (if v = unwrittenSlot then rest else (i, v) :: rest)
    else (a, w) :: Memory.write rest i v

/-- The patterns of slots `0 .. k-1`. -/
def Memory.firstSlots (m : Memory) (k : Nat) : List Sample := (List.range k).map (Memory.read m)

/-- `TxPut(b)` (R10). -/
def txPut (b : Byte) (s : State) : State := { s with txOut := s.txOut ++ [b] }

/-- `Emit(e)` (R10). -/
def emitEvent (e : Event) (s : State) : State := { s with oOut := s.oOut ++ [e] }

/-- `raise AcquisitionFault`: the whole entry of ENC's fault (R153). -/
def haltEnc (s : State) : State := { s with encPhase := .halt }

/-- `raise <Fault>(c)` in RX: the whole entry of an RX fault (R155). -/
def raiseRx (c : Cause) (s : State) : State := { s with oPend := .fault, oCause := c, rxPhase := .seek1 }

/-- `Pend(FRAME)` with the return to seeking that stands beside it in both its uses (R132, R133). -/
def pendFrame (s : State) : State := { s with oPend := .frame, rxPhase := .seek1 }

/-- The event RX owes its consumer (R77, R137). -/
def pendingEvent (s : State) : Option Event :=
  match s.oPend with
  | .none => none
  | .frame => some (.frame s.decCount ((s.decBuf.firstSlots s.decCount.toNat).map toS16))
  | .fault => some (.fault s.oCause)

/-- Whether an RX token operation is enabled: RX accepts a token (R36) and its phase is one of those the operation's row
lists (R78). -/
def rxTakesIn (phases : List RxPhase) (s : State) : Bool := s.oPend = .none ∧ s.rxPhase ∈ phases

/-- SyncState, the view of `rx_phase` (R30). -/
def State.syncState (s : State) : SyncState :=
  if s.rxPhase = .seek2 then .seekingSecondMagicByte else .seekingFirstMagicByte

/-- The script once its taken item is gone, and the draw counter moved on (log 4, 10). -/
def advance (rest : List Offer) (s : State) : State := { s with script := rest, draws := s.draws + 1 }

end Sys2Proof.Machine
end

