-- ==== Sys2Proof/Machine/Encoder.lean ====
section
/-! DEFINITION. The frame encoder's operations (40_encoder.md), over any parameters, and as this hardware's instructions. -/

namespace Sys2Proof.Machine

/-- OBSERVE (R92); outside ACCUM it is not enabled, and nothing happens (R78, R91). -/
def observe (p : Config.Params) (v : Sample) (s : State) : Result :=
  if s.encPhase = .accum then
    if s.encWr < p.n then
      .next { s with
        encBuf := s.encBuf.write s.encWr v
        encWr := s.encWr + 1
        encPhase := if s.encWr + 1 = p.n then .emit else s.encPhase }
    else .fault (.noSuchEncSlot s.encWr)
  else .next s

/-- ACQFAULT (R94, R153); outside ACCUM it is not enabled (R78, R91). -/
def acqFault (s : State) : Result :=
  if s.encPhase = .accum then .next (haltEnc s) else .next s

/-- The emitted byte function `B(i)` (R96), for `i` below the frame's length. -/
def emittedByte (p : Config.Params) (buf : Memory) (i : Nat) : Byte :=
  if i = 0 then p.magic0
  else if i = 1 then p.magic1
  else if i = 2 then lowByte (BitVec.ofNat 16 p.n)
  else if i = 3 then highByte (BitVec.ofNat 16 p.n)
  else if (i - 4) % 2 = 0 then lowByte (buf.read ((i - 4) / 2))
  else highByte (buf.read ((i - 4) / 2))

/-- The emission index after a byte (R93): with the frame's last byte ENC returns to ACCUM with an empty buffer. -/
def emitNext (p : Config.Params) (s : State) : State :=
  if s.encRd + 1 = p.frameLen then { s with encRd := 0, encWr := 0, encPhase := .accum }
  else { s with encRd := s.encRd + 1 }

/-- EMIT (R93); outside EMIT it is not enabled (R78, R91). -/
def emit (p : Config.Params) (s : State) : Result :=
  if s.encPhase = .emit then
    if s.encRd < p.frameLen then .next (emitNext p (txPut (emittedByte p s.encBuf s.encRd) s))
    else .fault (.noSuchEncSlot ((s.encRd - 4) / 2))
  else .next s

/-- OBSERVE of this hardware. -/
def execObserve (v : Sample) (s : State) : Result := observe Config.params v s
/-- ACQFAULT of this hardware; `s_data` is ignored. -/
def execAcqFault (s : State) : Result := acqFault s
/-- EMIT of this hardware. -/
def execEmit (s : State) : Result := emit Config.params s

end Sys2Proof.Machine
end

