-- ==== Sys2Proof/Machine/FrameDecoder.lean ====
section
/-! DEFINITION. The frame decoder's operations (42_decoder.md). An operation whose phase or channel state is not its row's is
not enabled, and nothing happens (R78). -/

namespace Sys2Proof.Machine

/-- CNTLO.BYTE (R131): the low byte of `dec_count`; its high byte keeps its value. -/
def execCntLoByte (b : Byte) (s : State) : Result :=
  if rxTakesIn [.cntLo] s then .next { s with decCount := word16 (highByte s.decCount) b, rxPhase := .cntHi }
  else .next s

/-- What CNTHI.BYTE does once `dec_count` holds the whole count (R132): a count of 0 is a complete frame at once. -/
def startPayload (s : State) : State :=
  if s.decCount = 0 then pendFrame s else { s with decIdx := 0, rxPhase := .payload }

/-- CNTHI.BYTE (R132). The count is not checked (R79 b). -/
def execCntHiByte (b : Byte) (s : State) : Result :=
  if rxTakesIn [.cntHi] s then .next (startPayload { s with decCount := word16 b (lowByte s.decCount) }) else .next s

/-- The index after a payload byte (R133): with the last of `2 * dec_count` bytes the frame is pending. -/
def payloadNext (s : State) : State :=
  if s.decIdx + 1 = 2 * s.decCount.toNat then pendFrame s else { s with decIdx := s.decIdx + 1 }

/-- PAYLOAD.BYTE (R133): a byte of even index waits in `dec_lo`, one of odd index completes a sample. -/
def execPayloadByte (b : Byte) (s : State) : Result :=
  if rxTakesIn [.payload] s then
    if s.decIdx % 2 = 0 then .next (payloadNext { s with decLo := b })
    else if s.decIdx / 2 < Config.decCap then
      .next (payloadNext { s with decBuf := s.decBuf.write (s.decIdx / 2) (word16 b s.decLo) })
    else .fault (.noSuchDecSlot (s.decIdx / 2))
  else .next s

/-- A fault of the decoder: the TIMEOUT or EOS token taken with a frame in progress (R134, R135, R156). -/
def decFault (c : Cause) (s : State) : Result :=
  if rxTakesIn [.cntLo, .cntHi, .payload] s then .next (raiseRx c s) else .next s

/-- DEC.TIMEOUT (R134); `rx_data` is ignored. -/
def execDecTimeout (s : State) : Result := decFault Config.causeShortTimeout s
/-- DEC.EOS (R135); `rx_data` is ignored. -/
def execDecEos (s : State) : Result := decFault Config.causeShortEos s

/-- HANDOFF (R137): the pending event is delivered whole; with none pending it is not enabled. -/
def execHandoff (s : State) : Result :=
  match pendingEvent s with
  | some e => .next { emitEvent e s with oPend := .none }
  | none => .next s

end Sys2Proof.Machine
end

