-- ==== Sys2Proof/Machine/Resets.lean ====
section
/-! DEFINITION. The reset operations of the two blocks (70_reset_and_hazards.md). What a reset does not write keeps its
contents (log 3). -/

namespace Sys2Proof.Machine

/-- ENC_RESET (R181): in any phase; `enc_buf` is not written. -/
def execEncReset (s : State) : Result := .next { s with encPhase := .accum, encWr := 0, encRd := 0 }

/-- RX_RESET (R182): in any phase, with any event pending, which is lost; the data registers are not written. -/
def execRxReset (s : State) : Result := .next { s with rxPhase := .seek1, oPend := .none }

end Sys2Proof.Machine
end

