-- ==== Sys2Proof/Machine/Synchronizer.lean ====
section
/-! DEFINITION. The stream synchronizer's operations (41_synchronizer.md). An operation whose phase or channel state is not
its row's is not enabled, and nothing happens (R78). -/

namespace Sys2Proof.Machine

/-- SEEK1.BYTE (R111). -/
def seek1Byte (p : Config.Params) (b : Byte) (s : State) : Result :=
  if rxTakesIn [.seek1] s then .next (if b = p.magic0 then { s with rxPhase := .seek2 } else s) else .next s

/-- SEEK2.BYTE (R112): the byte is not looked at again. -/
def seek2Byte (p : Config.Params) (b : Byte) (s : State) : Result :=
  if rxTakesIn [.seek2] s then .next { s with rxPhase := if b = p.magic1 then .cntLo else .seek1 } else .next s

/-- A fault of the synchronizer: the TIMEOUT or EOS token taken while seeking (R113, R114, R154). -/
def seekFault (c : Cause) (s : State) : Result :=
  if rxTakesIn [.seek1, .seek2] s then .next (raiseRx c s) else .next s

/-- SEEK1.BYTE of this hardware. -/
def execSeek1Byte (b : Byte) (s : State) : Result := seek1Byte Config.params b s
/-- SEEK2.BYTE of this hardware. -/
def execSeek2Byte (b : Byte) (s : State) : Result := seek2Byte Config.params b s
/-- SEEK.TIMEOUT (R113); `rx_data` is ignored. -/
def execSeekTimeout (s : State) : Result := seekFault Config.causeTransportTimeout s
/-- SEEK.EOS (R114); `rx_data` is ignored. -/
def execSeekEos (s : State) : Result := seekFault Config.causeTransportEos s

end Sys2Proof.Machine
end

