-- ==== Sys2Proof/Machine/Wire.lean ====
section
/-! DEFINITION. The two rows of the operation table that are no operation: the format WIRE (R71) and the reserved token kind
(R79 c). -/

namespace Sys2Proof.Machine

/-- The BYTE items a FRAME item stands for (R81, R82). -/
def frameItems (p : Config.Params) (samples : List Sample) : List Offer :=
  (encodeFrame p samples).map fun b => .rxtok (byteToken b)

/-- WIRE offered to RX: the pseudo-item `FRAME[..]`, which expands to the BYTE items of its `4 + 2K` bytes (R81, log 6);
each is then taken by the operation of its phase, so a TIMEOUT, an EOS or a reset can still cut the frame short (R139). -/
def wire (p : Config.Params) (samples : List Sample) (s : State) : Result :=
  if samples.length ≤ 65535 then .next { s with script := frameItems p samples ++ s.script }
  else .refused .frameTooLong

/-- WIRE of this hardware. -/
def execWire (samples : List Sample) (s : State) : Result := wire Config.params samples s

/-- RESERVED.RXKIND3: the spec gives it no meaning, and a model refuses it (R79 c, 93 U3). -/
def execReservedRxKind3 (_s : State) : Result := .refused .reservedRxKind

end Sys2Proof.Machine
end

