-- ==== Sys2Proof/Machine/Dispatch.lean ====
section
/-! DEFINITION. The meaning of each instruction, one arm per row of the operation table. -/

namespace Sys2Proof.Machine

def exec (i : Instr) (s : State) : Host.Outcome State Fault Refusal :=
  match i with
  | .wire samples => Sys2Proof.Machine.execWire samples s
  | .observe v => Sys2Proof.Machine.execObserve v s
  | .acqFault _ => Sys2Proof.Machine.execAcqFault s
  | .emit => Sys2Proof.Machine.execEmit s
  | .encReset => Sys2Proof.Machine.execEncReset s
  | .seek1Byte b => Sys2Proof.Machine.execSeek1Byte b s
  | .seek2Byte b => Sys2Proof.Machine.execSeek2Byte b s
  | .seekTimeout _ => Sys2Proof.Machine.execSeekTimeout s
  | .seekEos _ => Sys2Proof.Machine.execSeekEos s
  | .cntLoByte b => Sys2Proof.Machine.execCntLoByte b s
  | .cntHiByte b => Sys2Proof.Machine.execCntHiByte b s
  | .payloadByte b => Sys2Proof.Machine.execPayloadByte b s
  | .decTimeout _ => Sys2Proof.Machine.execDecTimeout s
  | .decEos _ => Sys2Proof.Machine.execDecEos s
  | .handoff => Sys2Proof.Machine.execHandoff s
  | .rxReset => Sys2Proof.Machine.execRxReset s
  | .reservedRxKind3 _ => Sys2Proof.Machine.execReservedRxKind3 s

end Sys2Proof.Machine
end

