-- ==== Sys2Proof/Machine/Flags.lean ====
section
/-! DEFINITION. The status of the hardware: it has no arithmetic flags (R35); its status is what the output ports show, each
a function of the state (R26, R36, R37). While a block's reset input is 1 its channels are forced closed (R180). -/

namespace Sys2Proof.Machine

/-- `s_ready` (R26, R180). -/
def sReady (encRst : Bool) (s : State) : Bool := !encRst && s.encPhase = .accum
/-- `tx_valid` (R26, R180). -/
def txValid (encRst : Bool) (s : State) : Bool := !encRst && s.encPhase = .emit
/-- `tx_data` (R26, R96); unspecified, hence free, while `tx_valid = 0`. -/
def txData (p : Config.Params) (encRst : Bool) (s : State) : Byte :=
  if txValid encRst s then emittedByte p s.encBuf s.encRd else Config.freeTxData s.draws
/-- `enc_halted` (R26). -/
def encHalted (s : State) : Bool := s.encPhase = .halt

/-- `rx_ready` (R36, R180). -/
def rxReady (rxRst : Bool) (s : State) : Bool := !rxRst && s.oPend = .none
/-- `o_valid` (R36, R180). -/
def oValid (rxRst : Bool) (s : State) : Bool := !rxRst && s.oPend ≠ .none
/-- `o_kind` (R35, R36): NONE 0, FRAME 1, FAULT 2. -/
def oKind (s : State) : BitVec 2 :=
  match s.oPend with
  | .none => 0
  | .frame => 1
  | .fault => 2
/-- `o_count` (R36); not meaningful, hence free, unless `o_kind` is FRAME. -/
def oCount (s : State) : BitVec 16 := if s.oPend = .frame then s.decCount else Config.freeCount s.draws
/-- Port `o_cause` (R36); not meaningful, hence free, unless `o_kind` is FAULT. -/
def oCausePort (s : State) : Cause := if s.oPend = .fault then s.oCause else Config.freeCause s.draws
/-- `o_rdata` at `o_raddr` (R36, R55): a read changes nothing; unspecified, hence free, outside a pending frame. -/
def oRdata (s : State) (raddr : BitVec 16) : Sample :=
  if s.oPend = .frame ∧ raddr.toNat < s.decCount.toNat then s.decBuf.read raddr.toNat
  else Config.freeRdata s.draws raddr
/-- Format OEVT, `{o_kind, o_count, o_cause}` (R77). -/
def oEvtWord (s : State) : BitVec 21 := oKind s ++ oCount s ++ oCausePort s

/-- Whether the block an offer is for takes it in this state: the `ready` or `valid` of its channel (R26, R36); a reset is
taken in any state (R180). A FRAME item stands on `rx` (R81). -/
def offerReady (s : State) : Offer → Bool
  | .stok _ => sReady false s
  | .txReady => txValid false s
  | .rxtok _ => rxReady false s
  | .oReady => oValid false s
  | .encRst => true
  | .rxRst => true
  | .frame _ => rxReady false s

end Sys2Proof.Machine
end

