-- ==== Sys2Proof/Machine/Fetch.lean ====
section
/-! DEFINITION. What the next transfer is (R8, R78): the first offered item whose channel is open. The items before it wait
where they stand, as the sender of a token waits with its data held (R8, R91). -/

namespace Sys2Proof.Machine

/-- The first item a block takes in this state, with the items that remain offered. -/
def firstReady (s : State) : List Offer → Option (Offer × List Offer)
  | [] => none
  | o :: rest =>
    if offerReady s o then some (o, rest)
    else (firstReady s rest).map fun found => (found.1, o :: found.2)

/-- The next transfer, if any offered item can be taken. -/
def fetch (s : State) : Option (Offer × List Offer) := firstReady s s.script

/-- The state in which the channel an item stands on is open: as it is where the channel is open already, else the block in
the nearest state its operations lead to that opens it (log 4): an empty buffer for `s`, a full buffer at offset 0 for `tx`,
nothing pending for `rx`, an empty frame pending for `o`. -/
def openFor (p : Config.Params) (o : Offer) (s : State) : State :=
  if offerReady s o then s
  else
    match o with
    | .stok _ => { s with encPhase := .accum, encWr := 0, encRd := 0 }
    | .txReady => { s with encPhase := .emit, encWr := p.n, encRd := 0 }
    | .rxtok _ => { s with oPend := .none }
    | .oReady => { s with oPend := .frame, decCount := 0, rxPhase := .seek1 }
    | .encRst => s
    | .rxRst => s
    | .frame _ => { s with oPend := .none }

/-- The item of the script that stands for a word of spec/opcode_table.json. -/
def fetchWordItem (nbits w : Nat) : Offer := tableOffer nbits w

end Sys2Proof.Machine
end

