-- ==== Sys2Proof/Machine/Step.lean ====
section
/-! DEFINITION. One step of the machine: the next transfer or reset of one block (R8), decoded and executed. -/

namespace Sys2Proof.Machine

/-- What one offered item does: the operation it selects in RX's phase (R78). -/
def takeOffer (o : Offer) (s : State) : Result :=
  match decode s.rxPhase o with
  | .ok i => exec i s
  | .error why => .refused (.notAFrame why)

/-- One step. With no offered item ready the hardware waits, without limit (R100, R198). -/
def step (s : State) : Host.Outcome State Fault Refusal :=
  match fetch s with
  | some (o, rest) => takeOffer o (advance rest s)
  | none => .next (advance s.script s)

/-- The state with a word of spec/opcode_table.json standing first among the environment's offers and its channel open, so
that the next step runs it (log 4). -/
def State.withFetchWord (s : State) (nbits w : Nat) : State :=
  { openFor Config.params (fetchWordItem nbits w) s with script := fetchWordItem nbits w :: s.script }

end Sys2Proof.Machine
end

