-- ==== Sys2Proof/Machine/Environment.lean ====
section
/-! DEFINITION. The parts of the environment contracts that the spec states exactly (R13, R15), as pure functions. No rule of
ENC or RX depends on them (R6), and the step does not use them. -/

namespace Sys2Proof.Machine

/-- The sample period in microseconds (R13); there is none at a rate of 0 (93 U15). -/
def tickPeriod (sampleRateHz : Nat) : Option Nat :=
  if sampleRateHz = 0 then none else some (1000000 / sampleRateHz)

/-- The deadline `k` periods after the first, each from the one before it (R13). -/
def tickDeadline (first period : Nat) : Nat → Nat
  | 0 => first
  | k + 1 => tickDeadline first period k + period

/-- The capacity of the sliding-history window (R15). -/
def windowCapacity (sampleRateHz windowSeconds : Nat) : Nat := sampleRateHz * windowSeconds

/-- Appending to the sliding-history window: the most recently appended `capacity` samples remain, in order (R15). -/
def windowAppend (capacity : Nat) (history new : List Int) : List Int :=
  (history ++ new).drop ((history ++ new).length - capacity)

end Sys2Proof.Machine
end

