-- ==== Sys2Proof/Machine/Parameters.lean ====
section
/-! DEFINITION. The machine over any parameters `N`, `MAGIC0`, `MAGIC1` of R7. The hardware of the host's interface is this
machine at the default parameters; RX does not use `N` (R7). -/

namespace Sys2Proof.Machine

/-- The meaning of each instruction, over any parameters. -/
def execFor (p : Config.Params) (i : Instr) (s : State) : Result :=
  match i with
  | .wire samples => wire p samples s
  | .observe v => observe p v s
  | .acqFault _ => execAcqFault s
  | .emit => emit p s
  | .encReset => execEncReset s
  | .seek1Byte b => seek1Byte p b s
  | .seek2Byte b => seek2Byte p b s
  | .seekTimeout _ => execSeekTimeout s
  | .seekEos _ => execSeekEos s
  | .cntLoByte b => execCntLoByte b s
  | .cntHiByte b => execCntHiByte b s
  | .payloadByte b => execPayloadByte b s
  | .decTimeout _ => execDecTimeout s
  | .decEos _ => execDecEos s
  | .handoff => execHandoff s
  | .rxReset => execRxReset s
  | .reservedRxKind3 _ => execReservedRxKind3 s

/-- What one offered item does (R78), over any parameters. -/
def takeOfferFor (p : Config.Params) (o : Offer) (s : State) : Result :=
  match decodeFor p s.rxPhase o with
  | .ok i => execFor p i s
  | .error why => .refused (.notAFrame why)

/-- One step (R8, R100, R198), over any parameters. -/
def stepFor (p : Config.Params) (s : State) : Result :=
  match fetch s with
  | some (o, rest) => takeOfferFor p o (advance rest s)
  | none => .next (advance s.script s)

/-- The machine with given parameters; its state after reset does not depend on them (R183). -/
def coreFor (p : Config.Params) : Host.Core where
  State := State
  Fault := Fault
  Refusal := Refusal
  step := stepFor p
  reset := State.reset

end Sys2Proof.Machine
end

