-- ==== Sys2Proof/Safety.lean ====
section
/-! DEFINITION. The terms claims are stated in: runs, the invariants of R25 and R38, what agrees between two states, what an
operation's being enabled means (R78), and ENC joined to RX by the ideal Transport (R12, R60). -/

namespace Sys2Proof

/-- The operations of block ENC (R78). -/
def Instr.ofEnc : Instr → Bool
  | .observe _ | .acqFault _ | .emit | .encReset => true
  | .wire _ | .seek1Byte _ | .seek2Byte _ | .seekTimeout _ | .seekEos _ | .cntLoByte _ | .cntHiByte _ | .payloadByte _
  | .decTimeout _ | .decEos _ | .handoff | .rxReset | .reservedRxKind3 _ => false

/-- The operations of block RX (R78). -/
def Instr.ofRx : Instr → Bool
  | .seek1Byte _ | .seek2Byte _ | .seekTimeout _ | .seekEos _ | .cntLoByte _ | .cntHiByte _ | .payloadByte _
  | .decTimeout _ | .decEos _ | .handoff | .rxReset => true
  | .wire _ | .observe _ | .acqFault _ | .emit | .encReset | .reservedRxKind3 _ => false

/-- The operations a token on `rx` causes (R78). -/
def Instr.takesRxToken : Instr → Bool
  | .seek1Byte _ | .seek2Byte _ | .seekTimeout _ | .seekEos _ | .cntLoByte _ | .cntHiByte _ | .payloadByte _
  | .decTimeout _ | .decEos _ => true
  | .handoff | .rxReset | .wire _ | .observe _ | .acqFault _ | .emit | .encReset | .reservedRxKind3 _ => false

/-- The cause code of the fault an operation raises (R151), for the four that raise one. -/
def Instr.raises? : Instr → Option Cause
  | .seekTimeout _ => some 1
  | .seekEos _ => some 2
  | .decTimeout _ => some 3
  | .decEos _ => some 4
  | .seek1Byte _ | .seek2Byte _ | .cntLoByte _ | .cntHiByte _ | .payloadByte _ | .handoff | .rxReset | .wire _
  | .observe _ | .acqFault _ | .emit | .encReset | .reservedRxKind3 _ => none

end Sys2Proof

namespace Sys2Proof.Machine

/-- `k` steps of the machine. -/
abbrev run (k : Nat) (s : State) : Result := Host.Core.run Sys2Proof.core k s
/-- `k` steps of the machine with given parameters (R7). -/
abbrev runFor (p : Config.Params) (k : Nat) (s : State) : Result := Host.Core.run (coreFor p) k s

/-- The BYTE items of a list of bytes. -/
def byteItems (bytes : List Byte) : List Offer := bytes.map fun b => .rxtok (byteToken b)
/-- The SAMPLE items of a list of samples. -/
def sampleItems (samples : List Sample) : List Offer := samples.map fun v => .stok (mkSToken 0 v)
/-- The TIMEOUT item `T` (R80). -/
def timeoutItem : Offer := .rxtok (mkRxToken 1 0)

/-- Whether an operation is enabled (R78): its block's channel is open and RX is in a phase of its row. A reset is enabled
in any state (R181, R182); the two rows that are no operation have no such condition: a FRAME item may be expanded, and the
reserved token is refused, in any state. -/
def enabled (i : Instr) (s : State) : Bool :=
  match i with
  | .observe _ | .acqFault _ => s.encPhase = .accum
  | .emit => s.encPhase = .emit
  | .encReset | .rxReset | .wire _ | .reservedRxKind3 _ => true
  | .handoff => s.oPend ≠ .none
  | .seek1Byte _ | .seek2Byte _ | .seekTimeout _ | .seekEos _ | .cntLoByte _ | .cntHiByte _ | .payloadByte _
  | .decTimeout _ | .decEos _ => s.oPend = .none ∧ i.selectedIn s.rxPhase

/-- The greedy positions of R115: what follows the marker the scan finds in bytes it takes from SEEK1, if it finds one. -/
def scanAlign (p : Config.Params) : List Byte → Option (List Byte)
  | [] => none
  | [_] => none
  | b :: c :: rest =>
    if b ≠ p.magic0 then scanAlign p (c :: rest)
    else if c = p.magic1 then some rest
    else scanAlign p rest

/-- The registers of ENC agree. -/
structure EncSame (s t : State) : Prop where
  buf : t.encBuf = s.encBuf
  wr : t.encWr = s.encWr
  rd : t.encRd = s.encRd
  phase : t.encPhase = s.encPhase

/-- The registers of RX agree. -/
structure RxSame (s t : State) : Prop where
  phase : t.rxPhase = s.rxPhase
  count : t.decCount = s.decCount
  lo : t.decLo = s.decLo
  idx : t.decIdx = s.decIdx
  buf : t.decBuf = s.decBuf
  pend : t.oPend = s.oPend
  cause : t.oCause = s.oCause

/-- What the environment offers agrees, and the free values it can see. -/
structure InputsSame (s t : State) : Prop where
  script : t.script = s.script
  draws : t.draws = s.draws

/-- The output traces agree. -/
structure TracesSame (s t : State) : Prop where
  tx : t.txOut = s.txOut
  o : t.oOut = s.oOut

/-- Every output port shows the same (R26, R36). -/
structure PortsSame (s t : State) : Prop where
  sReady : ∀ r, Machine.sReady r t = Machine.sReady r s
  txValid : ∀ r, Machine.txValid r t = Machine.txValid r s
  txData : ∀ r, Machine.txData Config.params r t = Machine.txData Config.params r s
  encHalted : Machine.encHalted t = Machine.encHalted s
  rxReady : ∀ r, Machine.rxReady r t = Machine.rxReady r s
  oValid : ∀ r, Machine.oValid r t = Machine.oValid r s
  oKind : Machine.oKind t = Machine.oKind s
  oCount : Machine.oCount t = Machine.oCount s
  oCause : Machine.oCausePort t = Machine.oCausePort s
  oRdata : ∀ a, Machine.oRdata t a = Machine.oRdata s a

/-- Two answers nothing outside the blocks can tell apart: both go on, with the same traces and the same ports, or both
stop for the same reason. -/
def SameOutside : Result → Result → Prop
  | .next s, .next t => TracesSame s t ∧ PortsSame s t
  | .fault x, .fault y => x = y
  | .refused x, .refused y => x = y
  | .next _, .fault _ | .next _, .refused _ | .fault _, .next _ | .fault _, .refused _ | .refused _, .next _
  | .refused _, .fault _ => False

/-- An event that R137, R138 and R151 allow: a frame with exactly `count` samples, each a signed 16-bit integer, or a fault
with a cause of `1 .. 4`. -/
def Event.whole : Event → Prop
  | .frame count samples => samples.length = count.toNat ∧ ∀ v ∈ samples, -32768 ≤ v ∧ v ≤ 32767
  | .fault cause => 1 ≤ cause.toNat ∧ cause.toNat ≤ 4

/-- The invariants of ENC's scalar registers (R25 a, b, c). -/
structure EncInv (p : Config.Params) (s : State) : Prop where
  accum : s.encPhase = .accum → s.encWr < p.n ∧ s.encRd = 0
  emit : s.encPhase = .emit → s.encWr = p.n ∧ s.encRd < p.frameLen
  halt : s.encPhase = .halt → s.encWr < p.n ∧ s.encRd = 0

/-- The invariants of RX's scalar registers (R38 a, b, and the codes of R35). -/
structure RxInv (s : State) : Prop where
  pendSeeks : s.oPend ≠ .none → s.rxPhase = .seek1
  payload : s.rxPhase = .payload → 1 ≤ s.decCount.toNat ∧ s.decIdx < 2 * s.decCount.toNat
  cause : s.oPend = .fault → 1 ≤ s.oCause.toNat ∧ s.oCause.toNat ≤ 4

/-- A buffer in canonical form with no slot at or above its capacity (R21, R34). -/
def BufferInv (capacity : Nat) (m : Memory) : Prop := Memory.wf m ∧ ∀ c ∈ m, c.1 < capacity

/-- The invariant of the machine. -/
structure Inv (p : Config.Params) (s : State) : Prop where
  enc : EncInv p s
  rx : RxInv s
  encBuf : BufferInv p.n s.encBuf
  decBuf : BufferInv Config.decCap s.decBuf
  events : ∀ e ∈ s.oOut, e.whole

/-- RX taking its tokens with every event handed over at once (R80, eager hand-off). -/
def takeEagerly : List RxToken → State → Result
  | [], s => .next s
  | w :: rest, s =>
    match takeOffer (.rxtok w) s with
    | .next t =>
      if t.oPend = .none then takeEagerly rest t
      else
        match exec .handoff t with
        | .next u => takeEagerly rest u
        | .fault r => .fault r
        | .refused r => .refused r
    | .fault r => .fault r
    | .refused r => .refused r

/-- The `rx` token an item offers, if it offers one. -/
def Offer.rxToken? : Offer → Option RxToken
  | .rxtok w => some w
  | .stok _ | .txReady | .oReady | .encRst | .rxRst | .frame _ => none

/-- The samples a `FRAME` event delivers; a `FAULT` event delivers none. -/
def Event.samples : Event → List Int
  | .frame _ samples => samples
  | .fault _ => []

/-- The events RX has delivered, and the one it owes its consumer. -/
def eventsOwed (s : State) : List Event := s.oOut ++ (pendingEvent s).toList

/-- The bytes of the frame in progress that RX has taken, as its registers hold them (R41 b, R56). -/
def rxPartial (p : Config.Params) (s : State) : List Byte :=
  match s.rxPhase with
  | .seek1 => []
  | .seek2 => [p.magic0]
  | .cntLo => [p.magic0, p.magic1]
  | .cntHi => [p.magic0, p.magic1, lowByte s.decCount]
  | .payload => p.magic0 :: p.magic1 :: lowByte s.decCount :: highByte s.decCount
      :: payloadBytes (s.decBuf.firstSlots (s.decIdx / 2)) ++ if s.decIdx % 2 = 0 then [] else [s.decLo]

/-- ENC and RX joined by the ideal Transport (R12), with the history that claims are stated in. -/
structure Linked where
  /-- The two blocks. -/
  machine : State
  /-- The bytes in flight between the blocks, oldest first (R41 a). -/
  inFlight : List Byte
  /-- The tokens RX has taken, oldest first. -/
  tokens : List RxToken
  /-- The samples ENC has accepted, oldest first. -/
  accepted : List Sample
  /-- Whether premises (c), (d) and (e) of R60 have held so far: no reset, every TIMEOUT and EOS taken in SEEK1, no
  ACQFAULT. -/
  undisturbed : Bool

/-- Both blocks in their reset state with nothing in flight (R60 b). -/
def Linked.reset : Linked := ⟨State.reset, [], [], [], true⟩

/-- The bytes among the tokens RX has taken, oldest first. -/
def Linked.taken (c : Linked) : List Byte := c.tokens.filterMap fun w => if rxKind w = 0 then some (rxData w) else none

/-- The EOS tokens RX has taken. -/
def Linked.eosTaken (c : Linked) : List RxToken := c.tokens.filter fun w => rxKind w = 2

/-- One step of the joined blocks. The Transport is R12's ideal one: RX takes the bytes ENC put, in order and each once, with
a TIMEOUT between any two of them, in any phase, and at most one EOS. -/
inductive Linked.Step (p : Config.Params) : Linked → Linked → Prop where
  | observe {c : Linked} {v : Sample} {t : State} (on : enabled (.observe v) c.machine)
      (took : execFor p (.observe v) c.machine = .next t) :
      Step p c { c with machine := t, accepted := c.accepted ++ [v] }
  | acqFault {c : Linked} {x : BitVec 16} {t : State} (on : enabled (.acqFault x) c.machine)
      (took : execFor p (.acqFault x) c.machine = .next t) : Step p c { c with machine := t, undisturbed := false }
  | emit {c : Linked} {b : Byte} {t : State} (on : enabled .emit c.machine)
      (took : execFor p .emit c.machine = .next t) (put : t.txOut = c.machine.txOut ++ [b]) :
      Step p c { c with machine := t, inFlight := c.inFlight ++ [b] }
  | deliver {c : Linked} {b : Byte} {rest : List Byte} {t : State} (first : c.inFlight = b :: rest)
      (open_ : c.machine.oPend = .none) (took : takeOfferFor p (.rxtok (byteToken b)) c.machine = .next t) :
      Step p c { c with machine := t, inFlight := rest, tokens := c.tokens ++ [byteToken b] }
  | timeout {c : Linked} {w : RxToken} {t : State} (kind : rxKind w = 1) (open_ : c.machine.oPend = .none)
      (took : takeOfferFor p (.rxtok w) c.machine = .next t) :
      Step p c { c with machine := t, tokens := c.tokens ++ [w],
                        undisturbed := c.undisturbed && c.machine.rxPhase = .seek1 }
  | eos {c : Linked} {w : RxToken} {t : State} (kind : rxKind w = 2) (first : c.eosTaken = [])
      (open_ : c.machine.oPend = .none) (took : takeOfferFor p (.rxtok w) c.machine = .next t) :
      Step p c { c with machine := t, tokens := c.tokens ++ [w],
                        undisturbed := c.undisturbed && c.machine.rxPhase = .seek1 }
  | handoff {c : Linked} {t : State} (on : enabled .handoff c.machine)
      (took : execFor p .handoff c.machine = .next t) : Step p c { c with machine := t }
  | encReset {c : Linked} {t : State} (took : execFor p .encReset c.machine = .next t) :
      Step p c { c with machine := t, undisturbed := false }
  | rxReset {c : Linked} {t : State} (took : execFor p .rxReset c.machine = .next t) :
      Step p c { c with machine := t, undisturbed := false }

/-- The joined blocks reached from reset. -/
inductive Linked.Reached (p : Config.Params) : Linked → Prop where
  | reset : Reached p Linked.reset
  | step {c d : Linked} (before : Reached p c) (next : Linked.Step p c d) : Reached p d

/-- How the samples accepted, ENC's buffer, the bytes in flight, RX's partial frame and the events hang together while the
premises of R60 hold: frames `received` whole by RX and frames `inTransit` wholly put by ENC after them, every one of `N`
samples. ENC has put these frames and the first `enc_rd` bytes of the one in its buffer; it has accepted their samples and the
`enc_wr` in its buffer; RX has taken the received frames and its partial one; its events are the received frames, with faults
of causes 1 and 2 among them. -/
def Linked.Tied (p : Config.Params) (c : Linked) : Prop :=
  ∃ received inTransit : List (List Sample),
    (∀ f ∈ received ++ inTransit, f.length = p.n)
    ∧ c.machine.txOut = (received ++ inTransit).flatMap (encodeFrame p)
        ++ (encodeFrame p (c.machine.encBuf.firstSlots p.n)).take c.machine.encRd
    ∧ c.accepted = (received ++ inTransit).flatten ++ c.machine.encBuf.firstSlots c.machine.encWr
    ∧ c.taken = received.flatMap (encodeFrame p) ++ rxPartial p c.machine
    ∧ (eventsOwed c.machine).flatMap Event.samples = received.flatten.map toS16
    ∧ ∀ e ∈ eventsOwed c.machine, (∃ samples, e = .frame (BitVec.ofNat 16 p.n) samples ∧ samples.length = p.n)
        ∨ e = .fault 1 ∨ e = .fault 2

/-- The invariant of the joined blocks: that of the machine; the Transport is ideal, so the bytes RX has taken and those in
flight are the bytes ENC put, and RX has taken at most one EOS (R12); and while the premises of R60 hold, the tie. -/
structure Linked.Inv (p : Config.Params) (c : Linked) : Prop where
  machine : Machine.Inv p c.machine
  bytes : c.machine.txOut = c.taken ++ c.inFlight
  eos : c.eosTaken.length ≤ 1
  tied : c.undisturbed → c.Tied p

end Sys2Proof.Machine
end

