-- ==== Sys2Proof/Certificates/Slice0/Obligations.lean ====
section
/-! DEFINITION. The statements for the provers, from the numbered rules of spec/. -/

open Sys2Proof Sys2Proof.Machine

/-! ## Encodings and the operation map -/

/-- Every well-formed instruction is what its encoding decodes to, in every phase its row lists (R71, R75, R76, R78, R82):
no bit of a word is lost. -/
def Obligations.DecodeOfEncodeIsTheInstruction : Prop :=
  ∀ (i : Instr) (ph : RxPhase), i.wellFormed → i.selectedIn ph → decode ph (encode i) = .ok i

/-- What decodes is the encoding of what it decodes to, and that is well-formed and selected in the phase (R78): each word
has one meaning in a phase. -/
def Obligations.EncodeOfDecodeIsTheOffer : Prop :=
  ∀ (ph : RxPhase) (o : Offer) (i : Instr), decode ph o = .ok i → encode i = o ∧ i.wellFormed ∧ i.selectedIn ph

/-- Words written out bit by bit from R71, R75 and R76 decode to the rows they stand for. -/
def Obligations.WordsOfTheFormatsDecode : Prop :=
  decode .seek1 (.stok 0b01111111111111110) = .ok (.observe 0xFFFE)
  ∧ decode .seek1 (.stok 0b10000000000000000) = .ok (.acqFault 0)
  ∧ decode .seek1 (.rxtok 0b0010101010) = .ok (.seek1Byte 0xAA)
  ∧ decode .seek2 (.rxtok 0b0001010101) = .ok (.seek2Byte 0x55)
  ∧ decode .seek2 (.rxtok 0b0100000000) = .ok (.seekTimeout 0)
  ∧ decode .payload (.rxtok 0b1000000000) = .ok (.decEos 0)
  ∧ decode .seek1 (.frame [0xAA, 0x55, 0x01, 0x00, 0xFE, 0xFF]) = .ok (.wire [0xFFFE])

/-- While a channel is open, every word that is not the reserved kind selects exactly one enabled operation (R75, R76,
R78). -/
def Obligations.EveryTokenSelectsOneEnabledOperation : Prop :=
  ∀ (s : State),
    (s.encPhase = .accum → ∀ w : SToken, ∃ i, decode s.rxPhase (.stok w) = .ok i ∧ enabled i s
      ∧ ∀ j, encode j = .stok w → enabled j s → j = i)
    ∧ (s.oPend = .none → ∀ w : RxToken, rxKind w ≠ 3 → ∃ i, decode s.rxPhase (.rxtok w) = .ok i ∧ enabled i s
      ∧ ∀ j, encode j = .rxtok w → enabled j s → j = i)

/-- An operation that is not enabled does not happen: nothing changes (R78; log 5). -/
def Obligations.OperationNotEnabledChangesNothing : Prop :=
  ∀ (i : Instr) (s : State), ¬ enabled i s → exec i s = .next s

/-- The phase after each operation, as the last column of R78 gives it, and the other block's phase unchanged. The premise
`RxInv` rules out payload indices no run reaches. -/
def Obligations.PhaseAfterEachOperation : Prop :=
  ∀ (i : Instr) (s t : State), RxInv s → enabled i s → exec i s = .next t →
    t.encPhase = (match i with
      | .observe _ => if s.encWr + 1 < 512 then .accum else .emit
      | .acqFault _ => .halt
      | .emit => if s.encRd < 1027 then .emit else .accum
      | .encReset => .accum
      | _ => s.encPhase)
    ∧ t.rxPhase = (match i with
      | .seek1Byte b => if b = 0xAA then .seek2 else .seek1
      | .seek2Byte b => if b = 0x55 then .cntLo else .seek1
      | .cntLoByte _ => .cntHi
      | .cntHiByte b => if word16 b (lowByte s.decCount) ≠ 0 then .payload else .seek1
      | .payloadByte _ => if s.decIdx < 2 * s.decCount.toNat - 1 then .payload else .seek1
      | .seekTimeout _ => .seek1
      | .seekEos _ => .seek1
      | .decTimeout _ => .seek1
      | .decEos _ => .seek1
      | .handoff => s.rxPhase
      | .rxReset => .seek1
      | _ => s.rxPhase)

/-- A FRAME item stands for its bytes: WIRE puts the `4 + 2K` BYTE items of the frame where it stood (R81; log 6). -/
def Obligations.WireExpandsToItsBytes : Prop :=
  ∀ (samples : List Sample) (s : State), samples.length ≤ 65535 →
    ∃ bytes, bytes.length = 4 + 2 * samples.length
      ∧ bytes = 0xAA :: 0x55 :: lowByte (BitVec.ofNat 16 samples.length) :: highByte (BitVec.ofNat 16 samples.length)
          :: payloadBytes samples
      ∧ exec (.wire samples) s = .next { s with script := byteItems bytes ++ s.script }

/-- The reserved token kind has no meaning: the machine refuses it, in every phase (R79 c, D30). -/
def Obligations.ReservedKindIsRefused : Prop :=
  ∀ (ph : RxPhase) (w : RxToken) (s : State), rxKind w = 3 →
    decode ph (.rxtok w) = .ok (.reservedRxKind3 (rxData w))
    ∧ exec (.reservedRxKind3 (rxData w)) s = .refused .reservedRxKind

/-! ## The encoder -/

/-- OBSERVE stores the pattern unchanged in the slot `enc_wr`, advances it, and with the last slot goes to EMIT; `enc_rd`,
every other slot and all of RX keep their values, and nothing is put out in this step (R92). -/
def Obligations.ObserveStoresTheSample : Prop :=
  ∀ (v : Sample) (s : State), s.encBuf.wf → s.encPhase = .accum → s.encWr < 512 →
    decode s.rxPhase (.stok (mkSToken 0 v)) = .ok (.observe v)
    ∧ ∃ t, exec (.observe v) s = .next t
      ∧ t.encBuf.read s.encWr = v
      ∧ (∀ j, j ≠ s.encWr → t.encBuf.read j = s.encBuf.read j)
      ∧ t.encWr = s.encWr + 1
      ∧ t.encPhase = (if s.encWr + 1 = 512 then .emit else .accum)
      ∧ txValid false t = decide (s.encWr + 1 = 512)
      ∧ t.encRd = s.encRd
      ∧ RxSame s t ∧ TracesSame s t ∧ InputsSame s t

/-- ACQFAULT in ACCUM halts ENC, however many samples have accumulated: `enc_phase` changes and nothing else, so nothing is
put on `tx`; in EMIT no fault token is taken (R94). -/
def Obligations.AcqFaultHaltsTheEncoder : Prop :=
  ∀ (x : BitVec 16) (s : State),
    (s.encPhase = .accum →
      decode s.rxPhase (.stok (mkSToken 1 x)) = .ok (.acqFault x)
      ∧ ∃ t, exec (.acqFault x) s = .next t
        ∧ t = { s with encPhase := .halt }
        ∧ encHalted t = true ∧ sReady false t = false ∧ txValid false t = false)
    ∧ (s.encPhase = .emit → sReady false s = false)

/-- In HALT both channels of ENC are closed, and no instruction but ENC_RESET changes ENC or puts out a byte (R95). -/
def Obligations.OnlyResetLeavesHalt : Prop :=
  ∀ (s : State), s.encPhase = .halt →
    sReady false s = false ∧ txValid false s = false ∧ encHalted s = true
    ∧ ∀ (i : Instr) (t : State), i ≠ .encReset → exec i s = .next t → EncSame s t ∧ t.txOut = s.txOut

/-- The emitted byte function is the frame: `B(i)` is byte `i` of the frame of the buffer's samples, for every offset of
the frame and any parameters (R82, R96). -/
def Obligations.EmittedByteIsTheFrameByte : Prop :=
  ∀ (p : Config.Params) (buf : Memory) (i : Nat), i < p.frameLen →
    (encodeFrame p (buf.firstSlots p.n))[i]? = some (emittedByte p buf i)

/-- EMIT puts the byte `tx_data` shows, byte `enc_rd` of the frame, and advances; with the last byte ENC returns to ACCUM
with an empty buffer; the slots, all of RX and the events keep their values (R93). -/
def Obligations.EmitPutsTheNextFrameByte : Prop :=
  ∀ (s : State), s.encPhase = .emit → s.encRd < 1028 →
    decode s.rxPhase .txReady = .ok .emit
    ∧ ∃ b t, exec .emit s = .next t
      ∧ (encodeFrame Config.params (s.encBuf.firstSlots 512))[s.encRd]? = some b
      ∧ txData Config.params false s = b
      ∧ t.txOut = s.txOut ++ [b]
      ∧ (if s.encRd = 1027 then t.encRd = 0 ∧ t.encWr = 0 ∧ t.encPhase = .accum
         else t.encRd = s.encRd + 1 ∧ t.encWr = s.encWr ∧ t.encPhase = .emit)
      ∧ t.encBuf = s.encBuf ∧ RxSame s t ∧ t.oOut = s.oOut ∧ InputsSame s t

/-- ENC_RESET, in any phase: ACCUM, both indices 0, and nothing else is written; `enc_halted` returns to 0 (R181). That
`enc_buf` keeps its contents is the model's (log 3). -/
def Obligations.EncResetRestartsTheEncoder : Prop :=
  ∀ (s : State), ∃ t, exec .encReset s = .next t
    ∧ t = { s with encPhase := .accum, encWr := 0, encRd := 0 }
    ∧ encHalted t = false ∧ sReady false t = true

/-- Whole-frame emission (R97): from EMIT at offset 0, 1028 `tx` transfers put exactly the frame of the buffer, ENC stays in
EMIT throughout, and ends in ACCUM, 0, 0. -/
def Obligations.WholeFrameIsEmitted : Prop :=
  ∀ (s : State) (rest : List Offer), s.encPhase = .emit → s.encWr = 512 → s.encRd = 0 →
    s.script = List.replicate 1028 .txReady ++ rest →
    (∀ k < 1028, ∃ u, run k s = .next u ∧ u.encPhase = .emit ∧ u.encRd = k ∧ u.encBuf = s.encBuf)
    ∧ ∃ t, run 1028 s = .next t
      ∧ t.txOut = s.txOut ++ encodeFrame Config.params (s.encBuf.firstSlots 512)
      ∧ t.encPhase = .accum ∧ t.encWr = 0 ∧ t.encRd = 0 ∧ t.encBuf = s.encBuf
      ∧ RxSame s t ∧ t.oOut = s.oOut ∧ t.script = rest

/-- One frame cycle (R90): 512 samples accepted from an empty buffer, then 1028 `tx` transfers, put exactly the frame of
those samples and leave ENC as it began but for the buffer. -/
def Obligations.FrameCycleEmitsTheAcceptedSamples : Prop :=
  ∀ (s : State) (samples : List Sample) (rest : List Offer), s.encBuf.wf → s.encPhase = .accum → s.encWr = 0 →
    s.encRd = 0 → samples.length = 512 →
    s.script = sampleItems samples ++ List.replicate 1028 .txReady ++ rest →
    ∃ t, run (512 + 1028) s = .next t
      ∧ t.txOut = s.txOut ++ encodeFrame Config.params samples
      ∧ t.encPhase = .accum ∧ t.encWr = 0 ∧ t.encRd = 0
      ∧ RxSame s t ∧ t.oOut = s.oOut ∧ t.script = rest

/-- A reset during emission cuts the frame (R184): after `r` bytes and ENC_RESET exactly the first `r` bytes of the frame are
out, and ENC waits for samples. -/
def Obligations.ResetCutsTheFrameShort : Prop :=
  ∀ (s : State) (r : Nat) (rest : List Offer), s.encPhase = .emit → s.encWr = 512 → s.encRd = 0 → r < 1028 →
    s.script = List.replicate r .txReady ++ .encRst :: rest →
    ∃ t, run (r + 1) s = .next t
      ∧ t.txOut = s.txOut ++ (encodeFrame Config.params (s.encBuf.firstSlots 512)).take r
      ∧ t.encPhase = .accum ∧ t.encWr = 0 ∧ t.encRd = 0 ∧ t.script = rest

/-- The bytes put on `tx` since a reset are whole frames and `enc_rd` more (R25 e): every instruction but ENC_RESET keeps
that, counting a frame when its last byte leaves. -/
def Obligations.BytesPutCountWholeFrames : Prop :=
  ∀ (i : Instr) (s t : State) (before frames : Nat), i ≠ .encReset → exec i s = .next t →
    s.txOut.length = before + (1028 * frames + s.encRd) →
    t.txOut.length = before
      + (1028 * (if i = .emit ∧ s.encPhase = .emit ∧ s.encRd = 1027 then frames + 1 else frames) + t.encRd)

/-! ## The synchronizer -/

/-- SEEK1.BYTE: `MAGIC0` leads to SEEK2, any other byte, `MAGIC1` among them, is discarded without trace; nothing else
changes (R111). -/
def Obligations.SeekOneMatchesTheFirstMarkerByte : Prop :=
  ∀ (b : Byte) (s : State), s.rxPhase = .seek1 → s.oPend = .none →
    decode s.rxPhase (.rxtok (byteToken b)) = .ok (.seek1Byte b)
    ∧ exec (.seek1Byte b) s = .next { s with rxPhase := if b = 0xAA then .seek2 else .seek1 }

/-- SEEK2.BYTE: `MAGIC1` hands the stream to the decoder, any other byte, `MAGIC0` among them, leads back to SEEK1; nothing
else changes (R112). -/
def Obligations.SeekTwoMatchesTheSecondMarkerByte : Prop :=
  ∀ (b : Byte) (s : State), s.rxPhase = .seek2 → s.oPend = .none →
    decode s.rxPhase (.rxtok (byteToken b)) = .ok (.seek2Byte b)
    ∧ exec (.seek2Byte b) s = .next { s with rxPhase := if b = 0x55 then .cntLo else .seek1 }

/-- A TIMEOUT or an EOS taken while seeking raises TransportFault 1 or 2: the fault is pending, the scan starts again, and
nothing else changes (R113, R114). -/
def Obligations.SeekingInterruptedRaisesTransportFault : Prop :=
  ∀ (x : Byte) (s : State), s.rxPhase = .seek1 ∨ s.rxPhase = .seek2 → s.oPend = .none →
    decode s.rxPhase (.rxtok (mkRxToken 1 x)) = .ok (.seekTimeout x)
    ∧ exec (.seekTimeout x) s = .next { s with oPend := .fault, oCause := 1, rxPhase := .seek1 }
    ∧ decode s.rxPhase (.rxtok (mkRxToken 2 x)) = .ok (.seekEos x)
    ∧ exec (.seekEos x) s = .next { s with oPend := .fault, oCause := 2, rxPhase := .seek1 }

/-- The scan finds the first marker after noise that holds no `MAGIC0` (R115 a), and stays in SEEK1 through the noise. -/
def Obligations.ScanAlignsAfterNoiseWithoutMagic : Prop :=
  ∀ (s : State) (noise : List Byte) (rest : List Offer), s.rxPhase = .seek1 → s.oPend = .none →
    (∀ b ∈ noise, b ≠ 0xAA) → s.script = byteItems (noise ++ [0xAA, 0x55]) ++ rest →
    (∃ u, run noise.length s = .next u ∧ u.rxPhase = .seek1 ∧ u.oPend = .none)
    ∧ run (noise.length + 2) s
      = .next { s with rxPhase := .cntLo, script := rest, draws := s.draws + (noise.length + 2) }

/-- A run of `r` bytes `MAGIC0` before `MAGIC1`, entered in SEEK1, aligns exactly when `r` is odd (R115 b, R189). -/
def Obligations.RunOfMagicAlignsOnlyIfOdd : Prop :=
  ∀ (s : State) (r : Nat) (rest : List Offer), s.rxPhase = .seek1 → s.oPend = .none →
    s.script = byteItems (List.replicate r 0xAA ++ [0x55]) ++ rest →
    run (r + 1) s = .next { s with rxPhase := if r % 2 = 1 then .cntLo else .seek1,
                                   script := rest, draws := s.draws + (r + 1) }

/-- What the scan finds, exactly (R115): over any bytes taken from SEEK1 it aligns where the greedy positions say, with the
bytes after the marker still to be taken, or it is still seeking after the last; no event in either case. -/
def Obligations.ScanFollowsTheGreedyPositions : Prop :=
  ∀ (s : State) (bytes : List Byte) (rest : List Offer), s.rxPhase = .seek1 → s.oPend = .none →
    s.script = byteItems bytes ++ rest →
    match scanAlign Config.params bytes with
    | some after => ∃ t, run (bytes.length - after.length) s = .next t ∧ t.rxPhase = .cntLo ∧ t.oPend = .none
        ∧ t.script = byteItems after ++ rest ∧ t.oOut = s.oOut
    | none => ∃ t, run bytes.length s = .next t ∧ (t.rxPhase = .seek1 ∨ t.rxPhase = .seek2) ∧ t.oPend = .none
        ∧ t.script = rest ∧ t.oOut = s.oOut

/-- The one way into the decoder: only SEEK2.BYTE with `MAGIC1` enters CNT_LO, so a scan runs before every frame (R116,
R130). -/
def Obligations.OnlyTheMarkerEntersTheDecoder : Prop :=
  ∀ (i : Instr) (s t : State), exec i s = .next t → t.rxPhase = .cntLo → s.rxPhase ≠ .cntLo →
    s.rxPhase = .seek2 ∧ s.oPend = .none ∧ i = .seek2Byte 0x55

/-! ## The decoder -/

/-- CNTLO.BYTE writes the low byte of `dec_count`, keeps its high byte, and leads to CNT_HI; every byte is accepted and
nothing else changes (R131). -/
def Obligations.CountLowByteIsTaken : Prop :=
  ∀ (b : Byte) (s : State), s.rxPhase = .cntLo → s.oPend = .none →
    decode s.rxPhase (.rxtok (byteToken b)) = .ok (.cntLoByte b)
    ∧ ∃ c, lowByte c = b ∧ highByte c = highByte s.decCount
      ∧ exec (.cntLoByte b) s = .next { s with decCount := c, rxPhase := .cntHi }

/-- CNTHI.BYTE completes the count, `b2 + 256 * b3`, without checking it: a count of 0 is an empty frame at once, any other
starts the payload at index 0; nothing else changes (R132). -/
def Obligations.CountHighByteStartsThePayload : Prop :=
  ∀ (b : Byte) (s : State), s.rxPhase = .cntHi → s.oPend = .none →
    decode s.rxPhase (.rxtok (byteToken b)) = .ok (.cntHiByte b)
    ∧ ∃ c : BitVec 16, c.toNat = (lowByte s.decCount).toNat + 256 * b.toNat
      ∧ exec (.cntHiByte b) s = .next
          (if c = 0 then { s with decCount := c, oPend := .frame, rxPhase := .seek1 }
           else { s with decCount := c, decIdx := 0, rxPhase := .payload })

/-- PAYLOAD.BYTE: a byte of even index waits in `dec_lo`, one of odd index completes the sample `dec_idx >> 1`; the last of
`2 * dec_count` bytes makes the frame pending, any other advances the index; no other slot or register changes (R133). -/
def Obligations.PayloadByteIsPlaced : Prop :=
  ∀ (b : Byte) (s : State), s.decBuf.wf → s.rxPhase = .payload → s.oPend = .none → s.decIdx ≤ 131069 →
    decode s.rxPhase (.rxtok (byteToken b)) = .ok (.payloadByte b)
    ∧ ∃ t, exec (.payloadByte b) s = .next t
      ∧ (if s.decIdx % 2 = 0 then t.decLo = b ∧ t.decBuf = s.decBuf
         else t.decLo = s.decLo ∧ t.decBuf.read (s.decIdx / 2) = word16 b s.decLo
           ∧ ∀ j, j ≠ s.decIdx / 2 → t.decBuf.read j = s.decBuf.read j)
      ∧ (if s.decIdx + 1 = 2 * s.decCount.toNat then t.oPend = .frame ∧ t.rxPhase = .seek1 ∧ t.decIdx = s.decIdx
         else t.oPend = .none ∧ t.rxPhase = .payload ∧ t.decIdx = s.decIdx + 1)
      ∧ t.decCount = s.decCount ∧ t.oCause = s.oCause
      ∧ EncSame s t ∧ TracesSame s t ∧ InputsSame s t

/-- A TIMEOUT or an EOS taken with a frame in progress raises ShortPayloadFault 3 or 4: the fault is pending, the scan starts
again, and nothing else changes (R134, R135). -/
def Obligations.ShortReadRaisesShortPayloadFault : Prop :=
  ∀ (x : Byte) (s : State), s.rxPhase = .cntLo ∨ s.rxPhase = .cntHi ∨ s.rxPhase = .payload → s.oPend = .none →
    decode s.rxPhase (.rxtok (mkRxToken 1 x)) = .ok (.decTimeout x)
    ∧ exec (.decTimeout x) s = .next { s with oPend := .fault, oCause := 3, rxPhase := .seek1 }
    ∧ decode s.rxPhase (.rxtok (mkRxToken 2 x)) = .ok (.decEos x)
    ∧ exec (.decEos x) s = .next { s with oPend := .fault, oCause := 4, rxPhase := .seek1 }

/-- Where the faults of RX come from and what their entry changes (R150, R151, R155): an instruction that makes a fault
pending is one of the four, in a phase of its class, and it changes `o_pend`, `o_cause` and `rx_phase` only. -/
def Obligations.FaultEntryChangesThreeRegisters : Prop :=
  ∀ (i : Instr) (s t : State), exec i s = .next t → t.oPend = .fault → s.oPend ≠ .fault →
    ∃ c, i.raises? = some c ∧ (c.toNat ≤ 2 ↔ s.rxPhase = .seek1 ∨ s.rxPhase = .seek2)
      ∧ t = { s with oPend := .fault, oCause := c, rxPhase := .seek1 }

/-- HANDOFF delivers the pending event whole, a frame with every one of its `dec_count` samples read as signed, or the
fault's cause, and clears `o_pend`; nothing else changes (R137). -/
def Obligations.HandoffDeliversThePendingEvent : Prop :=
  ∀ (s : State),
    decode s.rxPhase .oReady = .ok .handoff
    ∧ (s.oPend = .frame → ∃ samples : List Int, samples.length = s.decCount.toNat
        ∧ (∀ j < s.decCount.toNat, samples[j]? = some (s.decBuf.read j).toInt)
        ∧ exec .handoff s = .next { s with oPend := .none, oOut := s.oOut ++ [.frame s.decCount samples] })
    ∧ (s.oPend = .fault →
        exec .handoff s = .next { s with oPend := .none, oOut := s.oOut ++ [.fault s.oCause] })

/-- What HANDOFF delivers for a frame is what the ports showed: the count on `o_count`, the samples through the read port
(R36, R77). -/
def Obligations.PortsShowWhatIsHandedOver : Prop :=
  ∀ (s : State), s.oPend = .frame →
    oEvtWord s = (1#2 ++ s.decCount ++ oCausePort s)
    ∧ ∃ t, exec .handoff s = .next t
      ∧ t.oOut = s.oOut
          ++ [.frame (oCount s) ((List.range (oCount s).toNat).map fun j => toS16 (oRdata s (BitVec.ofNat 16 j)))]

/-- RX_RESET, in any phase and with any event pending, which is lost: SEEK1, NONE, and nothing else is written (R182). That
the data registers keep their contents is the model's (log 3). -/
def Obligations.RxResetRestartsTheReceiver : Prop :=
  ∀ (s : State), ∃ t, exec .rxReset s = .next t
    ∧ t = { s with rxPhase := .seek1, oPend := .none }
    ∧ rxReady false t = true ∧ oValid false t = false

/-- Decoding goes by byte count (R136): from CNT_LO the phases are CNT_HI, then PAYLOAD for exactly `2 * count` bytes, then
SEEK1 with the frame of those bytes pending, whatever the bytes are. -/
def Obligations.DecodingGoesByByteCount : Prop :=
  ∀ (s : State) (l h : Byte) (payload : List Byte) (rest : List Offer), s.decBuf.wf → s.rxPhase = .cntLo →
    s.oPend = .none → payload.length = 2 * (word16 h l).toNat → s.script = byteItems (l :: h :: payload) ++ rest →
    (∃ u, run 1 s = .next u ∧ u.rxPhase = .cntHi ∧ u.oPend = .none)
    ∧ (∀ k, 2 ≤ k → k < 2 + payload.length → ∃ u, run k s = .next u ∧ u.rxPhase = .payload ∧ u.oPend = .none)
    ∧ ∃ t, run (2 + payload.length) s = .next t
      ∧ t.rxPhase = .seek1 ∧ pendingEvent t = some (.frame (word16 h l) (decodePayload payload))
      ∧ EncSame s t ∧ TracesSame s t ∧ t.script = rest

/-- Whole-frame reception (R139): from SEEK1 the bytes of `EncodeFrame(K, s)`, `1 ≤ K ≤ 65535`, end in SEEK1 with the frame
pending, no event on the way, and the HANDOFF that follows delivers exactly `FRAME(K, s)`. -/
def Obligations.WholeFrameIsReceived : Prop :=
  ∀ (s : State) (samples : List Sample) (rest : List Offer), s.decBuf.wf → s.rxPhase = .seek1 → s.oPend = .none →
    1 ≤ samples.length → samples.length ≤ 65535 →
    s.script = byteItems (encodeFrame Config.params samples) ++ .oReady :: rest →
    (∃ u, run (4 + 2 * samples.length) s = .next u ∧ u.oPend = .frame ∧ u.rxPhase = .seek1 ∧ u.oOut = s.oOut)
    ∧ ∃ t, run (4 + 2 * samples.length + 1) s = .next t
      ∧ t.oOut = s.oOut ++ [.frame (BitVec.ofNat 16 samples.length) (samples.map toS16)]
      ∧ t.rxPhase = .seek1 ∧ t.oPend = .none ∧ EncSame s t ∧ t.txOut = s.txOut ∧ t.script = rest

/-- The round trip of the format (R82): decoding the payload of an encoded frame gives the samples back, for any signed
16-bit samples and any parameters. -/
def Obligations.FormatRoundTrip : Prop :=
  ∀ (p : Config.Params) (samples : List Int), (∀ v ∈ samples, -32768 ≤ v ∧ v ≤ 32767) →
    decodePayload ((encodeFrame p (samples.map toU16)).drop 4) = samples

/-- A frame cut short inside the decoder by a TIMEOUT or an EOS is discarded as a fault, and the whole frame after it is
decoded (R134, R135, R158; 90_conflicts.md C2). -/
def Obligations.TruncatedFrameIsDiscardedAndTheNextDecoded : Prop :=
  ∀ (s : State) (cut whole : List Sample) (k : Nat) (w : RxToken) (rest : List Offer), s.decBuf.wf →
    s.rxPhase = .seek1 → s.oPend = .none → cut.length ≤ 65535 → 1 ≤ whole.length → whole.length ≤ 65535 →
    2 ≤ k → k < 4 + 2 * cut.length → rxKind w = 1 ∨ rxKind w = 2 →
    s.script = byteItems ((encodeFrame Config.params cut).take k) ++ .rxtok w :: .oReady
      :: (byteItems (encodeFrame Config.params whole) ++ .oReady :: rest) →
    ∃ t, run (k + 2 + (4 + 2 * whole.length) + 1) s = .next t
      ∧ t.oOut = s.oOut ++ [.fault (if rxKind w = 1 then 3 else 4),
          .frame (BitVec.ofNat 16 whole.length) (whole.map toS16)]
      ∧ t.rxPhase = .seek1 ∧ t.oPend = .none ∧ t.script = rest

/-! ## The whole machine -/

/-- Who writes what (R39): a register that an instruction changes is one that the rule's table lets it write. -/
def Obligations.OnlyTheListedOperationsWrite : Prop :=
  ∀ (i : Instr) (s t : State), exec i s = .next t →
    (t.encBuf ≠ s.encBuf → ∃ v, i = .observe v)
    ∧ (t.encWr ≠ s.encWr → (∃ v, i = .observe v) ∧ t.encWr = s.encWr + 1
        ∨ (i = .emit ∧ s.encRd = 1027 ∨ i = .encReset) ∧ t.encWr = 0)
    ∧ (t.encRd ≠ s.encRd → i = .emit ∨ i = .encReset)
    ∧ (t.encPhase ≠ s.encPhase → (∃ v, i = .observe v) ∧ t.encPhase = .emit ∨ i = .emit ∧ t.encPhase = .accum
        ∨ (∃ x, i = .acqFault x) ∧ t.encPhase = .halt ∨ i = .encReset ∧ t.encPhase = .accum)
    ∧ (t.rxPhase ≠ s.rxPhase → i.takesRxToken ∨ i = .rxReset)
    ∧ (lowByte t.decCount ≠ lowByte s.decCount → ∃ b, i = .cntLoByte b)
    ∧ (highByte t.decCount ≠ highByte s.decCount → ∃ b, i = .cntHiByte b)
    ∧ (t.decLo ≠ s.decLo → (∃ b, i = .payloadByte b) ∧ s.decIdx % 2 = 0)
    ∧ (t.decIdx ≠ s.decIdx → (∃ b, i = .cntHiByte b) ∧ t.decIdx = 0 ∨ (∃ b, i = .payloadByte b) ∧ t.decIdx = s.decIdx + 1)
    ∧ (t.decBuf ≠ s.decBuf → (∃ b, i = .payloadByte b) ∧ s.decIdx % 2 = 1)
    ∧ (t.oPend ≠ s.oPend → (∃ b, i = .cntHiByte b) ∧ t.decCount = 0
        ∨ (∃ b, i = .payloadByte b) ∧ s.decIdx + 1 = 2 * s.decCount.toNat ∨ i.raises? ≠ none
        ∨ (i = .handoff ∨ i = .rxReset) ∧ t.oPend = .none)
    ∧ (t.oCause ≠ s.oCause → i.raises? ≠ none)

/-- ENC and RX share no state (R3, R20): what an operation of ENC does to ENC and puts on `tx` depends on ENC's registers
alone, and what an operation of RX does to RX and delivers on `o` depends on RX's registers alone. -/
def Obligations.BlocksDoNotInfluenceEachOther : Prop :=
  ∀ (i : Instr) (s s' t : State), exec i s = .next t →
    (i.ofEnc → EncSame s s' → ∃ t' bytes, exec i s' = .next t' ∧ EncSame t t' ∧ RxSame s' t'
      ∧ t.txOut = s.txOut ++ bytes ∧ t'.txOut = s'.txOut ++ bytes ∧ t'.oOut = s'.oOut)
    ∧ (i.ofRx → RxSame s s' → ∃ t' events, exec i s' = .next t' ∧ RxSame t t' ∧ EncSame s' t'
      ∧ t.oOut = s.oOut ++ events ∧ t'.oOut = s'.oOut ++ events ∧ t'.txOut = s'.txOut)

/-- What has been put out is never recalled (R55, R99): the traces only grow, by at most one byte, and that by EMIT in EMIT
with the byte `tx_data` showed, and by at most one event, and that by HANDOFF with an event pending. -/
def Obligations.OutputsAreNeverRecalled : Prop :=
  ∀ (i : Instr) (s t : State), exec i s = .next t →
    (t.txOut = s.txOut ∨ i = .emit ∧ s.encPhase = .emit ∧ t.txOut = s.txOut ++ [txData Config.params false s])
    ∧ (t.oOut = s.oOut ∨ i = .handoff ∧ s.oPend ≠ .none ∧ ∃ e, pendingEvent s = some e ∧ t.oOut = s.oOut ++ [e])

/-- The handshake outputs (R26, R36, R180): `s_ready` and `tx_valid` are never 1 together, `rx_ready` is the opposite of
`o_valid`, `o_kind` is 0 exactly without `o_valid`, and under its reset a block's channels are closed. -/
def Obligations.ChannelsAreNeverOpenBothWays : Prop :=
  ∀ (s : State), ¬ (sReady false s = true ∧ txValid false s = true)
    ∧ rxReady false s = !oValid false s
    ∧ (oKind s = 0 ↔ oValid false s = false)
    ∧ sReady true s = false ∧ txValid true s = false ∧ rxReady true s = false ∧ oValid true s = false

/-- A step runs the decoded instruction (R8, R78): when the first item whose channel is open decodes to a well-formed
instruction, the step is that instruction at the state with the item taken and the items before it still waiting; the draw
counter, the model's own, moves on (log 4, 10). -/
def Obligations.StepRunsTheDecodedInstruction : Prop :=
  ∀ (s : State) (waiting later : List Offer) (o : Offer) (i : Instr), s.script = waiting ++ o :: later →
    (∀ w ∈ waiting, offerReady s w = false) → offerReady s o = true → decode s.rxPhase o = .ok i → i.wellFormed →
    step s = exec i { s with script := waiting ++ later, draws := s.draws + 1 }

/-- With nothing offered that a block takes, the hardware waits and every register keeps its value (R100, R198). -/
def Obligations.StepWaitsWhenNothingIsReady : Prop :=
  ∀ (s : State), (∀ o ∈ s.script, offerReady s o = false) → step s = .next { s with draws := s.draws + 1 }

/-- `State.reset`, the state after a reset step of both blocks (log 20), has the values R183 gives, and the outputs that
follow from them. -/
def Obligations.ResetLeavesTheSpecifiedValues : Prop :=
  State.reset.encPhase = .accum ∧ State.reset.encWr = 0 ∧ State.reset.encRd = 0
  ∧ State.reset.rxPhase = .seek1 ∧ State.reset.oPend = .none
  ∧ encHalted State.reset = false ∧ sReady false State.reset = true ∧ txValid false State.reset = false
  ∧ rxReady false State.reset = true ∧ oValid false State.reset = false

/-- The invariants of R25 and R38 hold at reset. -/
def Obligations.ResetMeetsTheInvariant : Prop := Inv Config.params State.reset

/-- Every step keeps the invariants of R25 and R38, the canonical form of both buffers, and that every event delivered is a
whole frame or a fault with a cause of `1 .. 4` (R138, R151). -/
def Obligations.StepKeepsTheInvariant : Prop :=
  ∀ (s t : State), Inv Config.params s → step s = .next t → Inv Config.params t

/-- Under the invariant no step faults (R25, R38; log 8): no slot outside a buffer is ever reached. -/
def Obligations.NoStepFaultsUnderTheInvariant : Prop :=
  ∀ (s : State) (r : Fault), Inv Config.params s → step s ≠ .fault r

/-- Where the machine faults (R21, R34, R40; the model's choice, log 8): OBSERVE and PAYLOAD.BYTE at a slot that does not
exist, EMIT past the frame, and nowhere else. -/
def Obligations.FaultsOnlyAtMissingSlots : Prop :=
  ∀ (i : Instr) (s : State),
    (∃ r, exec i s = .fault r) ↔
      (∃ v, i = .observe v) ∧ s.encPhase = .accum ∧ 512 ≤ s.encWr
      ∨ i = .emit ∧ s.encPhase = .emit ∧ 1028 ≤ s.encRd
      ∨ (∃ b, i = .payloadByte b) ∧ s.rxPhase = .payload ∧ s.oPend = .none ∧ s.decIdx % 2 = 1 ∧ 65535 ≤ s.decIdx / 2

/-- After ENC_RESET, ENC behaves as if it had never run (R181): from states that differ in ENC's registers only, no run of
the machine, whatever is offered, shows a difference on any port or trace. So nothing rests on what `enc_buf` held. -/
def Obligations.EncResetForgetsThePast : Prop :=
  ∀ (s t s' t' : State) (k : Nat), s.encBuf.wf → t.encBuf.wf → RxSame s t → InputsSame s t → TracesSame s t →
    exec .encReset s = .next s' → exec .encReset t = .next t' → SameOutside (run k s') (run k t')

/-- After RX_RESET, RX behaves as if it had never run (R182): from states that differ in RX's registers only, no run of the
machine, whatever is offered, shows a difference on any port or trace. So nothing rests on what the registers that R183
leaves unspecified held. -/
def Obligations.RxResetForgetsThePast : Prop :=
  ∀ (s t s' t' : State) (k : Nat), s.decBuf.wf → t.decBuf.wf → EncSame s t → InputsSame s t → TracesSame s t →
    exec .rxReset s = .next s' → exec .rxReset t = .next t' → SameOutside (run k s') (run k t')

/-- The sequence of events is a function of the sequence of tokens, independent of when the consumer raises `o_ready` (R59):
any run over tokens and hand-overs in any interleaving delivers a beginning of what eager hand-off of the same tokens
delivers, and all of it once every token is taken and nothing is pending. -/
def Obligations.EventsDoNotDependOnHandoverTiming : Prop :=
  ∀ (s e t : State) (script : List Offer) (k : Nat), s.oPend = .none →
    (∀ o ∈ script, o = .oReady ∨ ∃ w, o = .rxtok w) →
    takeEagerly (script.filterMap Offer.rxToken?) s = .next e →
    run k { s with script := script } = .next t →
    t.oOut <+: e.oOut
    ∧ (t.script.filterMap Offer.rxToken? = [] → t.oPend = .none → t.oOut = e.oOut)

/-- End to end (R60), over any parameters: with ENC and RX joined by the ideal Transport, from reset, without a reset or an
ACQFAULT, and with every TIMEOUT and EOS taken in SEEK1, the samples delivered are a prefix of the samples accepted, every
frame has exactly `N` samples, and the only faults have cause 1 or 2. -/
def Obligations.DeliveredSamplesArePrefixOfAccepted : Prop :=
  ∀ (p : Config.Params) (c : Linked), Linked.Reached p c → c.undisturbed →
    c.machine.oOut.flatMap Event.samples <+: c.accepted.map toS16
    ∧ ∀ e ∈ c.machine.oOut, (∃ samples, e = .frame (BitVec.ofNat 16 p.n) samples ∧ samples.length = p.n)
        ∨ e = .fault 1 ∨ e = .fault 2

/-- What R60 rests on, for one step (R12, R25, R38, R41, R58, R59): every step of the joined blocks, from any state that
meets it, keeps the invariant that ties the events delivered, RX's partial frame, the bytes in flight and ENC's buffer to the
samples accepted. -/
def Obligations.LinkedStepKeepsTheInvariant : Prop :=
  ∀ (p : Config.Params) (c d : Linked), Linked.Inv p c → Linked.Step p c d → Linked.Inv p d

/-- The joined blocks meet that invariant at reset (R60 b). -/
def Obligations.LinkedResetMeetsTheInvariant : Prop := ∀ (p : Config.Params), Linked.Inv p Linked.reset

/-! ## Any parameters (R7) -/

/-- This hardware is the machine over the parameters of R7 at their default values, which the host's interface is given
(log 12): its runs are those. -/
def Obligations.DefaultParametersGiveThisHardware : Prop :=
  ∀ (k : Nat) (s : State), run k s = runFor Config.params k s

/-- Over any parameters every step keeps the invariant, whose bounds are then those of `N` (R7, R25, R38). -/
def Obligations.StepKeepsTheInvariantForAnyParameters : Prop :=
  ∀ (p : Config.Params) (s t : State), Inv p s → stepFor p s = .next t → Inv p t

/-- Over any parameters, `N = 1` among them, a frame cycle of `N` samples and `L` transfers on `tx` puts exactly the frame of
those samples (R7, R90, R97). -/
def Obligations.FrameCycleForAnyParameters : Prop :=
  ∀ (p : Config.Params) (s : State) (samples : List Sample) (rest : List Offer), s.encBuf.wf → s.encPhase = .accum →
    s.encWr = 0 → s.encRd = 0 → samples.length = p.n →
    s.script = sampleItems samples ++ List.replicate p.frameLen .txReady ++ rest →
    ∃ t, runFor p (p.n + p.frameLen) s = .next t
      ∧ t.txOut = s.txOut ++ encodeFrame p samples
      ∧ t.encPhase = .accum ∧ t.encWr = 0 ∧ t.encRd = 0
      ∧ RxSame s t ∧ t.oOut = s.oOut ∧ t.script = rest

/-! ## The environment's exact contracts -/

/-- Deadlines (R13): `n` consecutive deadlines span exactly `n` periods from the first, and the period is the floor of
`1000000 / sampleRateHz`. -/
def Obligations.DeadlinesSpanWholePeriods : Prop :=
  ∀ (first period n rate : Nat), tickDeadline first period n = first + n * period
    ∧ (1 ≤ rate → ∃ q, tickPeriod rate = some q ∧ q * rate ≤ 1000000 ∧ 1000000 < (q + 1) * rate)

/-- The sliding-history window (R15): after an append it holds the most recent samples, in order, as many as there are up to
its capacity. -/
def Obligations.WindowKeepsTheMostRecentSamples : Prop :=
  ∀ (capacity : Nat) (history new : List Int),
    windowAppend capacity history new <:+ history ++ new
    ∧ (windowAppend capacity history new).length = min capacity (history.length + new.length)
end

