-- ==== Sys2Proof/Laws/Memory.lean ====
section
/-! SUPPORT. The laws of the two slot buffers: reading after writing, and that writing keeps the canonical form and the
capacity. -/

namespace Sys2Proof.Machine

@[simp] theorem Memory.read_nil (i : Nat) : Memory.read [] i = unwrittenSlot := rfl

theorem Memory.wf_nil : Memory.wf [] := by simp [Memory.wf]

/-- Below the first listed index nothing is listed. -/
theorem Memory.read_of_lt_all {m : Memory} {i : Nat} (h : ∀ c ∈ m, i < c.1) : m.read i = unwrittenSlot := by
  induction m with
  | nil => rfl
  | cons c rest ih =>
    have hc : i < c.1 := h c (by simp)
    have hne : i ≠ c.1 := by omega
    have := ih fun d hd => h d (by simp [hd])
    simp [Memory.read, hne, this]

/-- The indices a write can list. -/
theorem Memory.mem_write {m : Memory} {i : Nat} {v : Sample} {c : Nat × Sample} (h : c ∈ m.write i v) :
    c = (i, v) ∧ v ≠ unwrittenSlot ∨ c ∈ m := by
  induction m with
  | nil =>
    simp only [Memory.write] at h
    split at h <;> simp_all
  | cons d rest ih =>
    simp only [Memory.write] at h
    split at h
    · split at h <;> simp_all
    · split at h
      · split at h
        · exact .inr (List.mem_cons_of_mem _ h)
        · rcases List.mem_cons.1 h with h | h
          · exact .inl ⟨h, by assumption⟩
          · exact .inr (List.mem_cons_of_mem _ h)
      · rcases List.mem_cons.1 h with h | h
        · simp [h]
        · rcases ih h with h | h
          · exact .inl h
          · exact .inr (by simp [h])

theorem Memory.write_wf {m : Memory} (h : m.wf) (i : Nat) (v : Sample) : (m.write i v).wf := by
  refine ⟨?_, fun c hc => ?_⟩
  · induction m with
    | nil => simp only [Memory.write]; split <;> simp
    | cons d rest ih =>
      obtain ⟨hp, hz⟩ := h
      simp only [List.map_cons, List.pairwise_cons, List.mem_map, forall_exists_index, and_imp,
        forall_apply_eq_imp_iff₂] at hp
      have hrest : Memory.wf rest := ⟨hp.2, fun c hc => hz c (by simp [hc])⟩
      simp only [Memory.write]
      split
      · split
        · simpa using hp
        · simp only [List.map_cons, List.pairwise_cons, List.mem_cons, List.mem_map]
          refine ⟨?_, ?_, hp.2⟩
          · rintro a (rfl | ⟨c, hc, rfl⟩)
            · assumption
            · exact lt_trans (by assumption) (hp.1 c hc)
          · rintro a ⟨c, hc, rfl⟩
            exact hp.1 c hc
      · split
        · split
          · exact hp.2
          · simp only [List.map_cons, List.pairwise_cons, List.mem_map]
            refine ⟨?_, hp.2⟩
            rintro a ⟨c, hc, rfl⟩
            have := hp.1 c hc
            omega
        · simp only [List.map_cons, List.pairwise_cons, List.mem_map]
          refine ⟨?_, ih hrest⟩
          rintro a ⟨c, hc, rfl⟩
          rcases Memory.mem_write hc with ⟨rfl, _⟩ | hc
          · omega
          · exact hp.1 c hc
  · rcases Memory.mem_write hc with ⟨rfl, hv⟩ | hc
    · exact hv
    · exact h.2 c hc

/-- Reading after writing. -/
theorem Memory.read_write {m : Memory} (h : m.wf) (i j : Nat) (v : Sample) :
    (m.write i v).read j = if j = i then v else m.read j := by
  induction m with
  | nil =>
    simp only [Memory.write]
    split <;> by_cases hj : j = i <;> simp_all [Memory.read]
  | cons d rest ih =>
    obtain ⟨hp, hz⟩ := h
    simp only [List.map_cons, List.pairwise_cons, List.mem_map, forall_exists_index, and_imp,
      forall_apply_eq_imp_iff₂] at hp
    have hrest : Memory.wf rest := ⟨hp.2, fun c hc => hz c (by simp [hc])⟩
    have below : ∀ k, k ≤ d.1 → Memory.read rest k = unwrittenSlot := fun k hk =>
      Memory.read_of_lt_all fun c hc => lt_of_le_of_lt hk (hp.1 c hc)
    simp only [Memory.write]
    split
    · have hne : i ≠ d.1 := by omega
      split
      · by_cases hj : j = i
        · subst hj
          simp_all [Memory.read, below j (by omega)]
        · simp [hj]
      · by_cases hj : j = i <;> simp [Memory.read, hj]
    · split
      · split
        · by_cases hj : j = i
          · subst hj
            simp_all
          · simp_all [Memory.read]
        · by_cases hj : j = i <;> simp_all [Memory.read]
      · have := ih hrest
        by_cases hj : j = d.1
        · have : j ≠ i := by omega
          simp_all [Memory.read]
        · simp [Memory.read, hj, this]

theorem Memory.read_write_same {m : Memory} (h : m.wf) (i : Nat) (v : Sample) : (m.write i v).read i = v := by
  simp [Memory.read_write h]

theorem Memory.read_write_other {m : Memory} (h : m.wf) {i j : Nat} (hj : j ≠ i) (v : Sample) :
    (m.write i v).read j = m.read j := by
  simp [Memory.read_write h, hj]

/-- A write inside the capacity lists nothing outside it. -/
theorem Memory.write_below {m : Memory} {cap : Nat} (h : ∀ c ∈ m, c.1 < cap) {i : Nat} (hi : i < cap) (v : Sample) :
    ∀ c ∈ m.write i v, c.1 < cap := by
  intro c hc
  rcases Memory.mem_write hc with ⟨rfl, _⟩ | hc
  · exact hi
  · exact h c hc

/-- Two buffers in canonical form that read alike are equal data. -/
theorem Memory.ext_read {m n : Memory} (hm : m.wf) (hn : n.wf) (h : ∀ i, m.read i = n.read i) : m = n := by
  induction m generalizing n with
  | nil =>
    cases n with
    | nil => rfl
    | cons c rest =>
      have := h c.1
      exact absurd (by simpa [Memory.read] using this.symm) (hn.2 c (by simp))
  | cons c rest ih =>
    cases n with
    | nil =>
      have := h c.1
      exact absurd (by simpa [Memory.read] using this) (hm.2 c (by simp))
    | cons d tail =>
      obtain ⟨hp, hz⟩ := hm
      obtain ⟨hq, hy⟩ := hn
      simp only [List.map_cons, List.pairwise_cons, List.mem_map, forall_exists_index, and_imp,
        forall_apply_eq_imp_iff₂] at hp hq
      have hc := hz c (by simp)
      have hd := hy d (by simp)
      have hcd : c.1 = d.1 := by
        rcases lt_trichotomy c.1 d.1 with hlt | heq | hlt
        · have h1 := h c.1
          have h2 : Memory.read tail c.1 = unwrittenSlot :=
            Memory.read_of_lt_all fun e he => lt_trans hlt (hq.1 e he)
          have hne : c.1 ≠ d.1 := by omega
          simp [Memory.read, hne, h2, hc] at h1
        · exact heq
        · have h1 := h d.1
          have h2 : Memory.read rest d.1 = unwrittenSlot :=
            Memory.read_of_lt_all fun e he => lt_trans hlt (hp.1 e he)
          have hne : d.1 ≠ c.1 := by omega
          simp [Memory.read, hne, h2, Ne.symm hd] at h1
      have hv : c.2 = d.2 := by simpa [Memory.read, hcd] using h c.1
      have hrest : ∀ i, Memory.read rest i = Memory.read tail i := by
        intro i
        by_cases hi : i ≤ c.1
        · rw [Memory.read_of_lt_all fun e he => lt_of_le_of_lt hi (hp.1 e he),
            Memory.read_of_lt_all fun e he => lt_of_le_of_lt (hcd ▸ hi) (hq.1 e he)]
        · have h1 : i ≠ c.1 := by omega
          have h2 : i ≠ d.1 := by omega
          simpa [Memory.read, h1, h2] using h i
      rw [ih ⟨hp.2, fun e he => hz e (by simp [he])⟩ ⟨hq.2, fun e he => hy e (by simp [he])⟩ hrest]
      exact congrArg (· :: tail) (Prod.ext hcd hv)

@[simp] theorem Memory.length_firstSlots (m : Memory) (k : Nat) : (m.firstSlots k).length = k := by
  simp [Memory.firstSlots]

@[simp] theorem Memory.firstSlots_zero (m : Memory) : m.firstSlots 0 = [] := rfl

theorem Memory.firstSlots_succ (m : Memory) (k : Nat) : m.firstSlots (k + 1) = m.firstSlots k ++ [m.read k] := by
  simp [Memory.firstSlots, List.range_succ]

/-- A write leaves the slots below it. -/
theorem Memory.firstSlots_write {m : Memory} (h : m.wf) {i k : Nat} (hk : k ≤ i) (v : Sample) :
    (m.write i v).firstSlots k = m.firstSlots k := by
  refine List.map_congr_left fun j hj => Memory.read_write_other h ?_ v
  have := List.mem_range.1 hj
  omega

/-- The canonical form holds of both buffers at reset. -/
theorem reset_buffers_wf : State.reset.encBuf.wf ∧ State.reset.decBuf.wf := ⟨Memory.wf_nil, Memory.wf_nil⟩

end Sys2Proof.Machine
end

