-- ==== Sys2Proof/Laws/Operands.lean ====
section
/-! SUPPORT. The laws of the operand forms: the fields of an assembled token, the bytes of an assembled pattern, the length of
a frame. -/

namespace Sys2Proof.Machine

/-- The upper part of a concatenation. -/
theorem extract_upper {m n : Nat} (x : BitVec m) (y : BitVec n) : (x ++ y).extractLsb' n m = x := by
  apply BitVec.eq_of_getLsbD_eq
  intro i hi
  simp [BitVec.getLsbD_append, hi]

/-- The lower part of a concatenation. -/
theorem extract_lower {m n : Nat} (x : BitVec m) (y : BitVec n) : (x ++ y).extractLsb' 0 n = y := by
  apply BitVec.eq_of_getLsbD_eq
  intro i hi
  simp [BitVec.getLsbD_append, hi]

@[simp] theorem sKind_mkSToken (k : BitVec 1) (d : Sample) : sKind (mkSToken k d) = k :=
  extract_upper _ _

@[simp] theorem sData_mkSToken (k : BitVec 1) (d : Sample) : sData (mkSToken k d) = d :=
  extract_lower _ _

theorem mkSToken_fields (w : SToken) : mkSToken (sKind w) (sData w) = w := by
  apply BitVec.eq_of_getLsbD_eq
  intro i hi
  simp only [mkSToken, sKind, sData, BitVec.getLsbD_append, BitVec.getLsbD_extractLsb']
  by_cases h : i < 16
  · simp [h]
  · have : i = 16 := by omega
    subst this
    simp

@[simp] theorem rxKind_mkRxToken (k : BitVec 2) (d : Byte) : rxKind (mkRxToken k d) = k :=
  extract_upper _ _

@[simp] theorem rxData_mkRxToken (k : BitVec 2) (d : Byte) : rxData (mkRxToken k d) = d :=
  extract_lower _ _

theorem mkRxToken_fields (w : RxToken) : mkRxToken (rxKind w) (rxData w) = w := by
  apply BitVec.eq_of_getLsbD_eq
  intro i hi
  simp only [mkRxToken, rxKind, rxData, BitVec.getLsbD_append, BitVec.getLsbD_extractLsb']
  by_cases h : i < 8
  · simp [h]
  · have h2 : i - 8 < 2 := by omega
    have h3 : 8 + (i - 8) = i := by omega
    simp [h, h2, h3]

@[simp] theorem lowByte_word16 (hi lo : Byte) : lowByte (word16 hi lo) = lo :=
  extract_lower _ _

@[simp] theorem highByte_word16 (hi lo : Byte) : highByte (word16 hi lo) = hi :=
  extract_upper _ _

@[simp] theorem word16_high_low (w : BitVec 16) : word16 (highByte w) (lowByte w) = w := by
  apply BitVec.eq_of_getLsbD_eq
  intro i hi
  simp only [word16, highByte, lowByte, BitVec.getLsbD_append, BitVec.getLsbD_extractLsb']
  by_cases h : i < 8
  · simp [h]
  · have h2 : i - 8 < 8 := by omega
    have h3 : 8 + (i - 8) = i := by omega
    simp [h, h2, h3]

/-- The count is `b2 + 256 * b3` (R72). -/
theorem word16_toNat (hi lo : Byte) : (word16 hi lo).toNat = 256 * hi.toNat + lo.toNat := by
  simp only [word16, BitVec.toNat_append]
  rw [← Nat.shiftLeft_add_eq_or_of_lt lo.isLt]
  simp [Nat.shiftLeft_eq]
  omega

@[simp] theorem rxKind_byteToken (b : Byte) : rxKind (byteToken b) = 0 := by simp [byteToken]

@[simp] theorem rxData_byteToken (b : Byte) : rxData (byteToken b) = b := by simp [byteToken]

@[simp] theorem length_payloadBytes (samples : List Sample) : (payloadBytes samples).length = 2 * samples.length := by
  induction samples with
  | nil => rfl
  | cons w rest ih => simp [payloadBytes, ih]; omega

@[simp] theorem payloadBytes_append (xs ys : List Sample) : payloadBytes (xs ++ ys) = payloadBytes xs ++ payloadBytes ys := by
  induction xs with
  | nil => rfl
  | cons w rest ih => simp [payloadBytes, ih]

@[simp] theorem length_encodeFrame (p : Config.Params) (samples : List Sample) :
    (encodeFrame p samples).length = 4 + 2 * samples.length := by
  simp [encodeFrame]; omega

@[simp] theorem decodePatterns_payloadBytes (samples : List Sample) :
    decodePatterns (payloadBytes samples) = samples := by
  induction samples with
  | nil => rfl
  | cons w rest ih => simp [payloadBytes, decodePatterns, ih]

/-- `toS16` is the two's-complement reading (R9, log 11). -/
theorem toS16_eq_toInt (w : Sample) : toS16 w = w.toInt := by
  simp only [toS16, BitVec.toInt_eq_toNat_cond]
  split <;> split <;> omega

theorem toS16_range (w : Sample) : -32768 ≤ toS16 w ∧ toS16 w ≤ 32767 := by
  have := w.isLt
  simp only [toS16]
  split <;> omega

end Sys2Proof.Machine
end

