-- ==== Sys2Proof/Laws/State.lean ====
section
/-! SUPPORT. What each named update of the state leaves in each field. -/

namespace Sys2Proof.Machine

variable (s : State)

@[simp] theorem txPut_encBuf (b : Byte) : (txPut b s).encBuf = s.encBuf := rfl
@[simp] theorem txPut_encWr (b : Byte) : (txPut b s).encWr = s.encWr := rfl
@[simp] theorem txPut_encRd (b : Byte) : (txPut b s).encRd = s.encRd := rfl
@[simp] theorem txPut_encPhase (b : Byte) : (txPut b s).encPhase = s.encPhase := rfl
@[simp] theorem txPut_rxPhase (b : Byte) : (txPut b s).rxPhase = s.rxPhase := rfl
@[simp] theorem txPut_decCount (b : Byte) : (txPut b s).decCount = s.decCount := rfl
@[simp] theorem txPut_decLo (b : Byte) : (txPut b s).decLo = s.decLo := rfl
@[simp] theorem txPut_decIdx (b : Byte) : (txPut b s).decIdx = s.decIdx := rfl
@[simp] theorem txPut_decBuf (b : Byte) : (txPut b s).decBuf = s.decBuf := rfl
@[simp] theorem txPut_oPend (b : Byte) : (txPut b s).oPend = s.oPend := rfl
@[simp] theorem txPut_oCause (b : Byte) : (txPut b s).oCause = s.oCause := rfl
@[simp] theorem txPut_script (b : Byte) : (txPut b s).script = s.script := rfl
@[simp] theorem txPut_txOut (b : Byte) : (txPut b s).txOut = s.txOut ++ [b] := rfl
@[simp] theorem txPut_oOut (b : Byte) : (txPut b s).oOut = s.oOut := rfl
@[simp] theorem txPut_draws (b : Byte) : (txPut b s).draws = s.draws := rfl

@[simp] theorem emitEvent_encBuf (e : Event) : (emitEvent e s).encBuf = s.encBuf := rfl
@[simp] theorem emitEvent_encWr (e : Event) : (emitEvent e s).encWr = s.encWr := rfl
@[simp] theorem emitEvent_encRd (e : Event) : (emitEvent e s).encRd = s.encRd := rfl
@[simp] theorem emitEvent_encPhase (e : Event) : (emitEvent e s).encPhase = s.encPhase := rfl
@[simp] theorem emitEvent_rxPhase (e : Event) : (emitEvent e s).rxPhase = s.rxPhase := rfl
@[simp] theorem emitEvent_decCount (e : Event) : (emitEvent e s).decCount = s.decCount := rfl
@[simp] theorem emitEvent_decLo (e : Event) : (emitEvent e s).decLo = s.decLo := rfl
@[simp] theorem emitEvent_decIdx (e : Event) : (emitEvent e s).decIdx = s.decIdx := rfl
@[simp] theorem emitEvent_decBuf (e : Event) : (emitEvent e s).decBuf = s.decBuf := rfl
@[simp] theorem emitEvent_oPend (e : Event) : (emitEvent e s).oPend = s.oPend := rfl
@[simp] theorem emitEvent_oCause (e : Event) : (emitEvent e s).oCause = s.oCause := rfl
@[simp] theorem emitEvent_script (e : Event) : (emitEvent e s).script = s.script := rfl
@[simp] theorem emitEvent_txOut (e : Event) : (emitEvent e s).txOut = s.txOut := rfl
@[simp] theorem emitEvent_oOut (e : Event) : (emitEvent e s).oOut = s.oOut ++ [e] := rfl
@[simp] theorem emitEvent_draws (e : Event) : (emitEvent e s).draws = s.draws := rfl

@[simp] theorem haltEnc_encBuf : (haltEnc s).encBuf = s.encBuf := rfl
@[simp] theorem haltEnc_encWr : (haltEnc s).encWr = s.encWr := rfl
@[simp] theorem haltEnc_encRd : (haltEnc s).encRd = s.encRd := rfl
@[simp] theorem haltEnc_encPhase : (haltEnc s).encPhase = .halt := rfl
@[simp] theorem haltEnc_rxPhase : (haltEnc s).rxPhase = s.rxPhase := rfl
@[simp] theorem haltEnc_decCount : (haltEnc s).decCount = s.decCount := rfl
@[simp] theorem haltEnc_decLo : (haltEnc s).decLo = s.decLo := rfl
@[simp] theorem haltEnc_decIdx : (haltEnc s).decIdx = s.decIdx := rfl
@[simp] theorem haltEnc_decBuf : (haltEnc s).decBuf = s.decBuf := rfl
@[simp] theorem haltEnc_oPend : (haltEnc s).oPend = s.oPend := rfl
@[simp] theorem haltEnc_oCause : (haltEnc s).oCause = s.oCause := rfl
@[simp] theorem haltEnc_script : (haltEnc s).script = s.script := rfl
@[simp] theorem haltEnc_txOut : (haltEnc s).txOut = s.txOut := rfl
@[simp] theorem haltEnc_oOut : (haltEnc s).oOut = s.oOut := rfl
@[simp] theorem haltEnc_draws : (haltEnc s).draws = s.draws := rfl

@[simp] theorem raiseRx_encBuf (c : Cause) : (raiseRx c s).encBuf = s.encBuf := rfl
@[simp] theorem raiseRx_encWr (c : Cause) : (raiseRx c s).encWr = s.encWr := rfl
@[simp] theorem raiseRx_encRd (c : Cause) : (raiseRx c s).encRd = s.encRd := rfl
@[simp] theorem raiseRx_encPhase (c : Cause) : (raiseRx c s).encPhase = s.encPhase := rfl
@[simp] theorem raiseRx_rxPhase (c : Cause) : (raiseRx c s).rxPhase = .seek1 := rfl
@[simp] theorem raiseRx_decCount (c : Cause) : (raiseRx c s).decCount = s.decCount := rfl
@[simp] theorem raiseRx_decLo (c : Cause) : (raiseRx c s).decLo = s.decLo := rfl
@[simp] theorem raiseRx_decIdx (c : Cause) : (raiseRx c s).decIdx = s.decIdx := rfl
@[simp] theorem raiseRx_decBuf (c : Cause) : (raiseRx c s).decBuf = s.decBuf := rfl
@[simp] theorem raiseRx_oPend (c : Cause) : (raiseRx c s).oPend = .fault := rfl
@[simp] theorem raiseRx_oCause (c : Cause) : (raiseRx c s).oCause = c := rfl
@[simp] theorem raiseRx_script (c : Cause) : (raiseRx c s).script = s.script := rfl
@[simp] theorem raiseRx_txOut (c : Cause) : (raiseRx c s).txOut = s.txOut := rfl
@[simp] theorem raiseRx_oOut (c : Cause) : (raiseRx c s).oOut = s.oOut := rfl
@[simp] theorem raiseRx_draws (c : Cause) : (raiseRx c s).draws = s.draws := rfl

@[simp] theorem pendFrame_encBuf : (pendFrame s).encBuf = s.encBuf := rfl
@[simp] theorem pendFrame_encWr : (pendFrame s).encWr = s.encWr := rfl
@[simp] theorem pendFrame_encRd : (pendFrame s).encRd = s.encRd := rfl
@[simp] theorem pendFrame_encPhase : (pendFrame s).encPhase = s.encPhase := rfl
@[simp] theorem pendFrame_rxPhase : (pendFrame s).rxPhase = .seek1 := rfl
@[simp] theorem pendFrame_decCount : (pendFrame s).decCount = s.decCount := rfl
@[simp] theorem pendFrame_decLo : (pendFrame s).decLo = s.decLo := rfl
@[simp] theorem pendFrame_decIdx : (pendFrame s).decIdx = s.decIdx := rfl
@[simp] theorem pendFrame_decBuf : (pendFrame s).decBuf = s.decBuf := rfl
@[simp] theorem pendFrame_oPend : (pendFrame s).oPend = .frame := rfl
@[simp] theorem pendFrame_oCause : (pendFrame s).oCause = s.oCause := rfl
@[simp] theorem pendFrame_script : (pendFrame s).script = s.script := rfl
@[simp] theorem pendFrame_txOut : (pendFrame s).txOut = s.txOut := rfl
@[simp] theorem pendFrame_oOut : (pendFrame s).oOut = s.oOut := rfl
@[simp] theorem pendFrame_draws : (pendFrame s).draws = s.draws := rfl

@[simp] theorem advance_encBuf (rest : List Offer) : (advance rest s).encBuf = s.encBuf := rfl
@[simp] theorem advance_encWr (rest : List Offer) : (advance rest s).encWr = s.encWr := rfl
@[simp] theorem advance_encRd (rest : List Offer) : (advance rest s).encRd = s.encRd := rfl
@[simp] theorem advance_encPhase (rest : List Offer) : (advance rest s).encPhase = s.encPhase := rfl
@[simp] theorem advance_rxPhase (rest : List Offer) : (advance rest s).rxPhase = s.rxPhase := rfl
@[simp] theorem advance_decCount (rest : List Offer) : (advance rest s).decCount = s.decCount := rfl
@[simp] theorem advance_decLo (rest : List Offer) : (advance rest s).decLo = s.decLo := rfl
@[simp] theorem advance_decIdx (rest : List Offer) : (advance rest s).decIdx = s.decIdx := rfl
@[simp] theorem advance_decBuf (rest : List Offer) : (advance rest s).decBuf = s.decBuf := rfl
@[simp] theorem advance_oPend (rest : List Offer) : (advance rest s).oPend = s.oPend := rfl
@[simp] theorem advance_oCause (rest : List Offer) : (advance rest s).oCause = s.oCause := rfl
@[simp] theorem advance_script (rest : List Offer) : (advance rest s).script = rest := rfl
@[simp] theorem advance_txOut (rest : List Offer) : (advance rest s).txOut = s.txOut := rfl
@[simp] theorem advance_oOut (rest : List Offer) : (advance rest s).oOut = s.oOut := rfl
@[simp] theorem advance_draws (rest : List Offer) : (advance rest s).draws = s.draws + 1 := rfl

end Sys2Proof.Machine
end

