-- ==== Sys2Proof/Laws/Machine.lean ====
section
/-! SUPPORT. What each meaning can do, said once: if it answers a next state, which one; when it stops. Then the step and
runs of it. -/

namespace Sys2Proof.Machine

variable {s t : State}

theorem rxTakesIn_iff {phases : List RxPhase} : rxTakesIn phases s ↔ s.oPend = .none ∧ s.rxPhase ∈ phases := by
  simp [rxTakesIn]

/-! The encoder. -/

theorem observe_next {p : Config.Params} {v : Sample} (h : observe p v s = .next t) :
    s.encPhase ≠ .accum ∧ t = s ∨
    s.encPhase = .accum ∧ s.encWr < p.n ∧
      t = { s with encBuf := s.encBuf.write s.encWr v, encWr := s.encWr + 1,
                   encPhase := if s.encWr + 1 = p.n then .emit else s.encPhase } := by
  unfold observe at h
  split at h
  · split at h
    · exact .inr ⟨by assumption, by assumption, by cases h; rfl⟩
    · cases h
  · exact .inl ⟨by assumption, by cases h; rfl⟩

theorem acqFault_next (h : acqFault s = .next t) :
    s.encPhase ≠ .accum ∧ t = s ∨ s.encPhase = .accum ∧ t = haltEnc s := by
  unfold acqFault at h
  split at h <;> cases h <;> simp_all

theorem emit_next {p : Config.Params} (h : emit p s = .next t) :
    s.encPhase ≠ .emit ∧ t = s ∨
    s.encPhase = .emit ∧ s.encRd < p.frameLen ∧ t = emitNext p (txPut (emittedByte p s.encBuf s.encRd) s) := by
  unfold emit at h
  split at h
  · split at h
    · exact .inr ⟨by assumption, by assumption, by cases h; rfl⟩
    · cases h
  · exact .inl ⟨by assumption, by cases h; rfl⟩

/-! The synchronizer. -/

theorem seek1Byte_next {p : Config.Params} {b : Byte} (h : seek1Byte p b s = .next t) :
    ¬ rxTakesIn [.seek1] s ∧ t = s ∨
    rxTakesIn [.seek1] s ∧ t = if b = p.magic0 then { s with rxPhase := .seek2 } else s := by
  unfold seek1Byte at h
  split at h <;> cases h <;> simp_all

theorem seek2Byte_next {p : Config.Params} {b : Byte} (h : seek2Byte p b s = .next t) :
    ¬ rxTakesIn [.seek2] s ∧ t = s ∨
    rxTakesIn [.seek2] s ∧ t = { s with rxPhase := if b = p.magic1 then .cntLo else .seek1 } := by
  unfold seek2Byte at h
  split at h <;> cases h <;> simp_all

theorem seekFault_next {c : Cause} (h : seekFault c s = .next t) :
    ¬ rxTakesIn [.seek1, .seek2] s ∧ t = s ∨ rxTakesIn [.seek1, .seek2] s ∧ t = raiseRx c s := by
  unfold seekFault at h
  split at h <;> cases h <;> simp_all

/-! The decoder. -/

theorem execCntLoByte_next {b : Byte} (h : execCntLoByte b s = .next t) :
    ¬ rxTakesIn [.cntLo] s ∧ t = s ∨
    rxTakesIn [.cntLo] s ∧ t = { s with decCount := word16 (highByte s.decCount) b, rxPhase := .cntHi } := by
  unfold execCntLoByte at h
  split at h <;> cases h <;> simp_all

theorem execCntHiByte_next {b : Byte} (h : execCntHiByte b s = .next t) :
    ¬ rxTakesIn [.cntHi] s ∧ t = s ∨
    rxTakesIn [.cntHi] s ∧ t = startPayload { s with decCount := word16 b (lowByte s.decCount) } := by
  unfold execCntHiByte at h
  split at h <;> cases h <;> simp_all

theorem execPayloadByte_next {b : Byte} (h : execPayloadByte b s = .next t) :
    ¬ rxTakesIn [.payload] s ∧ t = s ∨
    rxTakesIn [.payload] s ∧ s.decIdx % 2 = 0 ∧ t = payloadNext { s with decLo := b } ∨
    rxTakesIn [.payload] s ∧ s.decIdx % 2 = 1 ∧ s.decIdx / 2 < Config.decCap ∧
      t = payloadNext { s with decBuf := s.decBuf.write (s.decIdx / 2) (word16 b s.decLo) } := by
  unfold execPayloadByte at h
  split at h
  · split at h
    · exact .inr (.inl ⟨by assumption, by assumption, by cases h; rfl⟩)
    · split at h
      · exact .inr (.inr ⟨by assumption, by omega, by assumption, by cases h; rfl⟩)
      · cases h
  · exact .inl ⟨by assumption, by cases h; rfl⟩

theorem decFault_next {c : Cause} (h : decFault c s = .next t) :
    ¬ rxTakesIn [.cntLo, .cntHi, .payload] s ∧ t = s ∨
    rxTakesIn [.cntLo, .cntHi, .payload] s ∧ t = raiseRx c s := by
  unfold decFault at h
  split at h <;> cases h <;> simp_all

theorem pendingEvent_eq_none : pendingEvent s = none ↔ s.oPend = .none := by
  unfold pendingEvent
  split <;> simp_all

theorem eventsOwed_of_none (h : s.oPend = .none) : eventsOwed s = s.oOut := by
  simp [eventsOwed, pendingEvent_eq_none.2 h]

theorem execHandoff_next (h : execHandoff s = .next t) :
    s.oPend = .none ∧ t = s ∨
    ∃ e, pendingEvent s = some e ∧ t = { emitEvent e s with oPend := .none } := by
  unfold execHandoff at h
  split at h
  · exact .inr ⟨_, by assumption, by cases h; rfl⟩
  · exact .inl ⟨pendingEvent_eq_none.1 (by assumption), by cases h; rfl⟩

/-! The index updates at the end of an operation. -/

theorem emitNext_cases (p : Config.Params) (s : State) :
    s.encRd + 1 = p.frameLen ∧ emitNext p s = { s with encRd := 0, encWr := 0, encPhase := .accum } ∨
    s.encRd + 1 ≠ p.frameLen ∧ emitNext p s = { s with encRd := s.encRd + 1 } := by
  unfold emitNext
  split <;> simp_all

theorem startPayload_cases (s : State) :
    s.decCount = 0 ∧ startPayload s = pendFrame s ∨
    s.decCount ≠ 0 ∧ startPayload s = { s with decIdx := 0, rxPhase := .payload } := by
  unfold startPayload
  split <;> simp_all

theorem payloadNext_cases (s : State) :
    s.decIdx + 1 = 2 * s.decCount.toNat ∧ payloadNext s = pendFrame s ∨
    s.decIdx + 1 ≠ 2 * s.decCount.toNat ∧ payloadNext s = { s with decIdx := s.decIdx + 1 } := by
  unfold payloadNext
  split <;> simp_all

/-! Every instruction at once. -/

/-- The next state of each instruction where it is enabled, over any parameters. -/
def Effect (p : Config.Params) (i : Instr) (s t : State) : Prop :=
  match i with
  | .wire samples => samples.length ≤ 65535 ∧ t = { s with script := frameItems p samples ++ s.script }
  | .observe v => s.encWr < p.n ∧
      t = { s with encBuf := s.encBuf.write s.encWr v, encWr := s.encWr + 1,
                   encPhase := if s.encWr + 1 = p.n then .emit else .accum }
  | .acqFault _ => t = haltEnc s
  | .emit => s.encRd < p.frameLen ∧ t = emitNext p (txPut (emittedByte p s.encBuf s.encRd) s)
  | .encReset => t = { s with encPhase := .accum, encWr := 0, encRd := 0 }
  | .seek1Byte b => t = { s with rxPhase := if b = p.magic0 then .seek2 else .seek1 }
  | .seek2Byte b => t = { s with rxPhase := if b = p.magic1 then .cntLo else .seek1 }
  | .seekTimeout _ => t = raiseRx 1 s
  | .seekEos _ => t = raiseRx 2 s
  | .cntLoByte b => t = { s with decCount := word16 (highByte s.decCount) b, rxPhase := .cntHi }
  | .cntHiByte b => t = startPayload { s with decCount := word16 b (lowByte s.decCount) }
  | .payloadByte b =>
      s.decIdx % 2 = 0 ∧ t = payloadNext { s with decLo := b } ∨
      s.decIdx % 2 = 1 ∧ s.decIdx / 2 < 65535 ∧
        t = payloadNext { s with decBuf := s.decBuf.write (s.decIdx / 2) (word16 b s.decLo) }
  | .decTimeout _ => t = raiseRx 3 s
  | .decEos _ => t = raiseRx 4 s
  | .handoff => ∃ e, pendingEvent s = some e ∧ t = { emitEvent e s with oPend := .none }
  | .rxReset => t = { s with rxPhase := .seek1, oPend := .none }
  | .reservedRxKind3 _ => False

/-- Everything an instruction can do when it answers a next state: where it is not enabled nothing, else its effect. -/
theorem execFor_next {p : Config.Params} {i : Instr} (h : execFor p i s = .next t) :
    ¬ enabled i s ∧ t = s ∨ enabled i s ∧ Effect p i s t := by
  have one {ph : RxPhase} : rxTakesIn [ph] s ↔ s.oPend = .none ∧ s.rxPhase = ph := by simp [rxTakesIn_iff]
  have seeks : rxTakesIn [.seek1, .seek2] s ↔ s.oPend = .none ∧ s.rxPhase.seeking := by
    simp only [rxTakesIn_iff]
    cases s.rxPhase <;> simp [RxPhase.seeking]
  have decodes : rxTakesIn [.cntLo, .cntHi, .payload] s ↔ s.oPend = .none ∧ s.rxPhase.seeking = false := by
    simp only [rxTakesIn_iff]
    cases s.rxPhase <;> simp [RxPhase.seeking]
  cases i <;> simp only [execFor] at h
  case wire =>
    unfold wire at h
    split at h
    · exact .inr ⟨rfl, by assumption, by cases h; rfl⟩
    · cases h
  case observe v =>
    rcases observe_next h with ⟨hp, rfl⟩ | ⟨hp, hw, rfl⟩
    · exact .inl ⟨by simp [enabled, hp], rfl⟩
    · exact .inr ⟨by simp [enabled, hp], hw, by simp [hp]⟩
  case acqFault =>
    rcases acqFault_next h with ⟨hp, rfl⟩ | ⟨hp, rfl⟩
    · exact .inl ⟨by simp [enabled, hp], rfl⟩
    · exact .inr ⟨by simp [enabled, hp], rfl⟩
  case emit =>
    rcases emit_next h with ⟨hp, rfl⟩ | ⟨hp, hr, rfl⟩
    · exact .inl ⟨by simp [enabled, hp], rfl⟩
    · exact .inr ⟨by simp [enabled, hp], hr, rfl⟩
  case encReset => exact .inr ⟨rfl, by cases h; rfl⟩
  case seek1Byte b =>
    rcases seek1Byte_next h with ⟨hp, rfl⟩ | ⟨hp, rfl⟩
    · exact .inl ⟨by simpa [enabled, Instr.selectedIn, one] using hp, rfl⟩
    · have hq := one.1 hp
      refine .inr ⟨by simp [enabled, Instr.selectedIn, hq], ?_⟩
      show (if b = p.magic0 then _ else s) = { s with rxPhase := if b = p.magic0 then .seek2 else .seek1 }
      by_cases hb : b = p.magic0
      · rw [if_pos hb, if_pos hb]
      · rw [if_neg hb, if_neg hb, ← hq.2]
  case seek2Byte b =>
    rcases seek2Byte_next h with ⟨hp, rfl⟩ | ⟨hp, rfl⟩
    · exact .inl ⟨by simpa [enabled, Instr.selectedIn, one] using hp, rfl⟩
    · exact .inr ⟨by simp [enabled, Instr.selectedIn, one.1 hp], rfl⟩
  case seekTimeout =>
    rcases seekFault_next h with ⟨hp, rfl⟩ | ⟨hp, rfl⟩
    · exact .inl ⟨fun he => hp (seeks.2 (by simpa [Instr.selectedIn] using of_decide_eq_true he)), rfl⟩
    · exact .inr ⟨by simp [enabled, Instr.selectedIn, seeks.1 hp], rfl⟩
  case seekEos =>
    rcases seekFault_next h with ⟨hp, rfl⟩ | ⟨hp, rfl⟩
    · exact .inl ⟨fun he => hp (seeks.2 (by simpa [Instr.selectedIn] using of_decide_eq_true he)), rfl⟩
    · exact .inr ⟨by simp [enabled, Instr.selectedIn, seeks.1 hp], rfl⟩
  case cntLoByte b =>
    rcases execCntLoByte_next h with ⟨hp, rfl⟩ | ⟨hp, rfl⟩
    · exact .inl ⟨by simpa [enabled, Instr.selectedIn, one] using hp, rfl⟩
    · exact .inr ⟨by simp [enabled, Instr.selectedIn, one.1 hp], rfl⟩
  case cntHiByte b =>
    rcases execCntHiByte_next h with ⟨hp, rfl⟩ | ⟨hp, rfl⟩
    · exact .inl ⟨by simpa [enabled, Instr.selectedIn, one] using hp, rfl⟩
    · exact .inr ⟨by simp [enabled, Instr.selectedIn, one.1 hp], rfl⟩
  case payloadByte b =>
    rcases execPayloadByte_next h with ⟨hp, rfl⟩ | ⟨hp, he, rfl⟩ | ⟨hp, he, hc, rfl⟩
    · exact .inl ⟨by simpa [enabled, Instr.selectedIn, one] using hp, rfl⟩
    · exact .inr ⟨by simp [enabled, Instr.selectedIn, one.1 hp], .inl ⟨he, rfl⟩⟩
    · exact .inr ⟨by simp [enabled, Instr.selectedIn, one.1 hp], .inr ⟨he, hc, rfl⟩⟩
  case decTimeout =>
    rcases decFault_next h with ⟨hp, rfl⟩ | ⟨hp, rfl⟩
    · exact .inl ⟨fun he => hp (decodes.2 (by simpa [Instr.selectedIn] using of_decide_eq_true he)), rfl⟩
    · exact .inr ⟨by simp [enabled, Instr.selectedIn, decodes.1 hp], rfl⟩
  case decEos =>
    rcases decFault_next h with ⟨hp, rfl⟩ | ⟨hp, rfl⟩
    · exact .inl ⟨fun he => hp (decodes.2 (by simpa [Instr.selectedIn] using of_decide_eq_true he)), rfl⟩
    · exact .inr ⟨by simp [enabled, Instr.selectedIn, decodes.1 hp], rfl⟩
  case handoff =>
    rcases execHandoff_next h with ⟨hp, rfl⟩ | ⟨e, he, rfl⟩
    · exact .inl ⟨by simp [enabled, hp], rfl⟩
    · have hp : s.oPend ≠ .none := fun hn => by simp [pendingEvent_eq_none.2 hn] at he
      exact .inr ⟨by simp [enabled, hp], e, he, rfl⟩
  case rxReset => exact .inr ⟨rfl, by cases h; rfl⟩
  case reservedRxKind3 => cases h

/-- This hardware is the machine at the default parameters. -/
theorem exec_eq_execFor (i : Instr) (s : State) : exec i s = execFor Config.params i s := by cases i <;> rfl

theorem exec_next {i : Instr} (h : exec i s = .next t) :
    ¬ enabled i s ∧ t = s ∨ enabled i s ∧ Effect Config.params i s t := execFor_next (exec_eq_execFor i s ▸ h)

/-! The step and runs of it. -/

/-- What a BYTE item does: the operation of RX's phase. -/
theorem takeOffer_byte (b : Byte) (s : State) :
    takeOffer (.rxtok (byteToken b)) s = exec (decodeByte s.rxPhase b) s := by
  simp [takeOffer, decode, decodeFor, decodeRx]

theorem takeOfferFor_byte (p : Config.Params) (b : Byte) (s : State) :
    takeOfferFor p (.rxtok (byteToken b)) s = execFor p (decodeByte s.rxPhase b) s := by
  simp [takeOfferFor, decodeFor, decodeRx]

/-- What a TIMEOUT or an EOS token does: the fault of RX's phase. -/
theorem takeOfferFor_interrupt (p : Config.Params) {w : RxToken} (hw : rxKind w = 1 ∨ rxKind w = 2) (s : State) :
    takeOfferFor p (.rxtok w) s =
      if s.rxPhase.seeking then seekFault (if rxKind w = 1 then 1 else 2) s
      else decFault (if rxKind w = 1 then 3 else 4) s := by
  rcases hw with hw | hw <;> simp only [takeOfferFor, decodeFor, decodeRx, hw] <;> cases s.rxPhase.seeking <;> rfl

theorem takeOffer_eq_takeOfferFor (o : Offer) (s : State) : takeOffer o s = takeOfferFor Config.params o s := by
  cases h : decodeFor Config.params s.rxPhase o <;> simp [takeOffer, takeOfferFor, decode, h, exec_eq_execFor]

/-- Where the first item is ready, it is the one taken. -/
theorem fetch_of_head_ready {o : Offer} {rest : List Offer} (hs : s.script = o :: rest) (h : offerReady s o) :
    fetch s = some (o, rest) := by
  simp [fetch, hs, firstReady, h]

theorem step_of_head_ready {o : Offer} {rest : List Offer} (hs : s.script = o :: rest) (h : offerReady s o) :
    step s = takeOffer o (advance rest s) := by
  simp [step, fetch_of_head_ready hs h]

/-- Everything a step can answer when it goes on. -/
theorem step_next (h : step s = .next t) :
    fetch s = none ∧ t = advance s.script s ∨
    ∃ o rest i, fetch s = some (o, rest) ∧ decode s.rxPhase o = .ok i ∧ exec i (advance rest s) = .next t := by
  unfold step at h
  split at h
  · rename_i o rest hf
    unfold takeOffer at h
    split at h
    · exact .inr ⟨o, rest, _, hf, by assumption, h⟩
    · cases h
  · exact .inl ⟨by assumption, by cases h; rfl⟩

/-- The item a fetch answers is ready, and the items that remain are the others in their order. -/
theorem firstReady_some {l rest : List Offer} {o : Offer} (h : firstReady s l = some (o, rest)) :
    offerReady s o ∧ ∃ waiting later, l = waiting ++ o :: later ∧ rest = waiting ++ later ∧
      ∀ w ∈ waiting, ¬ offerReady s w := by
  induction l generalizing rest with
  | nil => simp [firstReady] at h
  | cons a tail ih =>
    simp only [firstReady] at h
    split at h
    · simp only [Option.some.injEq, Prod.mk.injEq] at h
      obtain ⟨rfl, rfl⟩ := h
      exact ⟨by assumption, [], tail, by simp⟩
    · simp only [Option.map_eq_some_iff, Prod.mk.injEq] at h
      obtain ⟨⟨o', r⟩, hf, rfl, rfl⟩ := h
      obtain ⟨ho, waiting, later, rfl, rfl, hw⟩ := ih hf
      exact ⟨ho, a :: waiting, later, by simp_all⟩

theorem run_zero (s : State) : run 0 s = .next s := rfl

theorem run_succ_of_next {k : Nat} (h : step s = .next t) : run (k + 1) s = run k t := by
  show Host.Core.run Sys2Proof.core (k + 1) s = Host.Core.run Sys2Proof.core k t
  have h' : Sys2Proof.core.step s = .next t := h
  simp [Host.Core.run, h']

theorem run_add {j k : Nat} (h : run j s = .next t) : run (j + k) s = run k t := by
  induction j generalizing s with
  | zero =>
    cases h
    rw [Nat.zero_add]
  | succ j ih =>
    rw [Nat.add_right_comm]
    cases hs : step s with
    | next u =>
      rw [run_succ_of_next hs] at h ⊢
      exact ih h
    | fault r =>
      have hs' : Sys2Proof.core.step s = .fault r := hs
      simp [run, Host.Core.run, hs'] at h
    | refused r =>
      have hs' : Sys2Proof.core.step s = .refused r := hs
      simp [run, Host.Core.run, hs'] at h

end Sys2Proof.Machine
end

