-- ==== Sys2Proof/Laws/PerInstr.lean ====
section
/-! SUPPORT. One statement about the syntax of every instruction: its encoding has the bits that its row of
spec/opcode_table.json fixes. -/

namespace Sys2Proof.Laws.FixedBits

open Machine

/-- The fixed bits of a row (its mask and match), on the word the encoder gives; the rows of the two output formats and of
RST have no data word. -/
def Statement (i : Instr) : Prop :=
  match i with
  | .wire _ => ∃ l h payload, encode i = .frame (0xAA :: 0x55 :: l :: h :: payload)
  | .observe _ => ∃ w, encode i = .stok w ∧ w &&& 0x10000 = 0x00000
  | .acqFault _ => ∃ w, encode i = .stok w ∧ w &&& 0x10000 = 0x10000
  | .emit => encode i = .txReady
  | .encReset => encode i = .encRst
  | .seek1Byte _ | .seek2Byte _ | .cntLoByte _ | .cntHiByte _ | .payloadByte _ =>
    ∃ w, encode i = .rxtok w ∧ w &&& 0x300 = 0x000
  | .seekTimeout _ | .decTimeout _ => ∃ w, encode i = .rxtok w ∧ w &&& 0x300 = 0x100
  | .seekEos _ | .decEos _ => ∃ w, encode i = .rxtok w ∧ w &&& 0x300 = 0x200
  | .handoff => encode i = .oReady
  | .rxReset => encode i = .rxRst
  | .reservedRxKind3 _ => ∃ w, encode i = .rxtok w ∧ w &&& 0x300 = 0x300

/-- The mask of the STOK rows leaves the kind. -/
theorem sToken_kind (k : BitVec 1) (d : Sample) : mkSToken k d &&& 0x10000 = mkSToken k 0 := by
  apply BitVec.eq_of_getLsbD_eq
  intro i hi
  simp only [mkSToken, BitVec.getLsbD_and, BitVec.getLsbD_append]
  interval_cases i <;> simp

/-- The mask of the RXTOK rows leaves the kind. -/
theorem rxToken_kind (k : BitVec 2) (b : Byte) : mkRxToken k b &&& 0x300 = mkRxToken k 0 := by
  apply BitVec.eq_of_getLsbD_eq
  intro i hi
  simp only [mkRxToken, BitVec.getLsbD_and, BitVec.getLsbD_append]
  interval_cases i <;> simp

theorem wire (samples : List Sample) : Statement (.wire samples) := ⟨_, _, _, rfl⟩
theorem observe (v : Sample) : Statement (.observe v) := ⟨_, rfl, sToken_kind 0 v⟩
theorem acqFault (x : BitVec 16) : Statement (.acqFault x) := ⟨_, rfl, sToken_kind 1 x⟩
theorem emit : Statement .emit := rfl
theorem encReset : Statement .encReset := rfl
theorem seek1Byte (b : Byte) : Statement (.seek1Byte b) := ⟨_, rfl, rxToken_kind 0 b⟩
theorem seek2Byte (b : Byte) : Statement (.seek2Byte b) := ⟨_, rfl, rxToken_kind 0 b⟩
theorem seekTimeout (x : Byte) : Statement (.seekTimeout x) := ⟨_, rfl, rxToken_kind 1 x⟩
theorem seekEos (x : Byte) : Statement (.seekEos x) := ⟨_, rfl, rxToken_kind 2 x⟩
theorem cntLoByte (b : Byte) : Statement (.cntLoByte b) := ⟨_, rfl, rxToken_kind 0 b⟩
theorem cntHiByte (b : Byte) : Statement (.cntHiByte b) := ⟨_, rfl, rxToken_kind 0 b⟩
theorem payloadByte (b : Byte) : Statement (.payloadByte b) := ⟨_, rfl, rxToken_kind 0 b⟩
theorem decTimeout (x : Byte) : Statement (.decTimeout x) := ⟨_, rfl, rxToken_kind 1 x⟩
theorem decEos (x : Byte) : Statement (.decEos x) := ⟨_, rfl, rxToken_kind 2 x⟩
theorem handoff : Statement .handoff := rfl
theorem rxReset : Statement .rxReset := rfl
theorem reservedRxKind3 (x : Byte) : Statement (.reservedRxKind3 x) := ⟨_, rfl, rxToken_kind 3 x⟩

end Sys2Proof.Laws.FixedBits
end

