-- ==== Sys2Proof/Tests/Slice0.lean ====
section
/-! SUPPORT. The model's own tests. Expected values are the spec's: the examples that stand in the rules, the vectors of
95_test_vectors.md, words written out from the formats of 30_encoding.md. Then, for every statement with hypotheses, states
and operands that meet them. -/

namespace Sys2Proof.Tests

open Machine

/-! ## Well-formedness and decoding -/

/-- A list of samples one longer than the count field can say, and the longest it can. -/
def samplesOfLength (k : Nat) : List Sample := List.replicate k 7

theorem length_samplesOfLength (k : Nat) : (samplesOfLength k).length = k := List.length_replicate

theorem test_wellFormed_refuses_a_frame_too_long : (Instr.wire (samplesOfLength 65536)).wellFormed = false := by
  rw [Instr.wellFormed, length_samplesOfLength]; decide

theorem test_wellFormed_takes_the_longest_frame : (Instr.wire (samplesOfLength 65535)).wellFormed = true := by
  rw [Instr.wellFormed, length_samplesOfLength]; decide

/-- R71, V14: the frame of one sample 7. -/
theorem test_decode_wire :
    decode .seek1 (.frame [0b10101010, 0b01010101, 0b00000001, 0b00000000, 0x07, 0x00]) = .ok (.wire [7]) := by decide
/-- R75: `s_kind` 0, the pattern of -2. -/
theorem test_decode_observe : decode .seek1 (.stok 0b01111111111111110) = .ok (.observe 0xFFFE) := by decide
/-- R75: `s_kind` 1. -/
theorem test_decode_acqFault : decode .seek1 (.stok 0b10000000000000011) = .ok (.acqFault 3) := by decide
theorem test_decode_emit : decode .seek1 .txReady = .ok .emit := by decide
theorem test_decode_encReset : decode .seek1 .encRst = .ok .encReset := by decide
/-- R76 and R78: one BYTE word, five rows by the phase. -/
theorem test_decode_byte_by_phase :
    decode .seek1 (.rxtok 0b0010101010) = .ok (.seek1Byte 0xAA)
    ∧ decode .seek2 (.rxtok 0b0010101010) = .ok (.seek2Byte 0xAA)
    ∧ decode .cntLo (.rxtok 0b0010101010) = .ok (.cntLoByte 0xAA)
    ∧ decode .cntHi (.rxtok 0b0010101010) = .ok (.cntHiByte 0xAA)
    ∧ decode .payload (.rxtok 0b0010101010) = .ok (.payloadByte 0xAA) := by decide
/-- R76 and R78: TIMEOUT, two rows by the phase. -/
theorem test_decode_timeout_by_phase :
    decode .seek2 (.rxtok 0b0100000000) = .ok (.seekTimeout 0)
    ∧ decode .cntHi (.rxtok 0b0100000000) = .ok (.decTimeout 0) := by decide
/-- R76 and R78: EOS, two rows by the phase. -/
theorem test_decode_eos_by_phase :
    decode .seek1 (.rxtok 0b1000000001) = .ok (.seekEos 1)
    ∧ decode .payload (.rxtok 0b1000000001) = .ok (.decEos 1) := by decide
theorem test_decode_handoff : decode .seek1 .oReady = .ok .handoff := by decide
theorem test_decode_rxReset : decode .seek1 .rxRst = .ok .rxReset := by decide
/-- R79 c: `rx_kind` 3, in a seeking and in a decoding phase. -/
theorem test_decode_reserved :
    decode .seek1 (.rxtok 0b1100000000) = .ok (.reservedRxKind3 0)
    ∧ decode .payload (.rxtok 0b1111111111) = .ok (.reservedRxKind3 0xFF) := by decide

/-- Each name under which bytes are rejected. -/
theorem test_decodeBytes_rejects_by_name :
    decodeBytes .rxtok .seek1 [0xAA] = .error .wrongLength
    ∧ decodeBytes .rxtok .seek1 [0xAA, 0x04] = .error .strayBits
    ∧ decodeBytes .stok .seek1 [0, 0, 2] = .error .strayBits
    ∧ decodeBytes .wire .seek1 [0xAA, 0x55, 1] = .error .headerTooShort
    ∧ decodeBytes .wire .seek1 [0x55, 0xAA, 0, 0] = .error .notTheMarker
    ∧ decodeBytes .wire .seek1 [0xAA, 0x55, 1, 0, 7] = .error .wrongPayloadLength
    ∧ decodeBytes .rst .seek1 [0] = .error .resetNotAsserted
    ∧ decodeBytes .oevt .seek1 [0, 0, 0] = .error .noEvent := by decide

/-- The match words of opcode_table.json. -/
theorem test_decodeTableWord :
    decodeTableWord 16 0x55AA = some (.wire []) ∧ decodeTableWord 32 0x000155AA = some (.wire [0])
    ∧ decodeTableWord 24 0x00000 = some (.observe 0) ∧ decodeTableWord 24 0x10000 = some (.acqFault 0)
    ∧ decodeTableWord 8 1 = some .encReset ∧ decodeTableWord 8 0 = some .emit
    ∧ decodeTableWord 16 0x000 = some (.seek1Byte 0) ∧ decodeTableWord 16 0x100 = some (.seekTimeout 0)
    ∧ decodeTableWord 16 0x200 = some (.seekEos 0) ∧ decodeTableWord 16 0x300 = some (.reservedRxKind3 0)
    ∧ decodeTableWord 24 0x80000 = some .handoff := by decide

/-! ## Operands and buffers -/

/-- The signed examples of R73. -/
theorem test_signed_examples :
    payloadBytes [toU16 1, toU16 (-1), toU16 (-32768), toU16 32767, 0x55AA]
      = [0x01, 0x00, 0xFF, 0xFF, 0x00, 0x80, 0xFF, 0x7F, 0xAA, 0x55]
    ∧ toS16 0x55AA = 21930 ∧ toS16 0xFFFF = -1 ∧ toS16 0x8000 = -32768 := by decide

/-- P4: the bytes `01 AA 55 02` read as samples. -/
theorem test_decodePayload : decodePayload [0x01, 0xAA, 0x55, 0x02] = [-22015, 597] := by decide

/-- V34: a frame whose payload holds the marker. -/
theorem test_encodeFrame : encodeFrame Config.params [21930, 21930, 7]
    = [0xAA, 0x55, 0x03, 0x00, 0xAA, 0x55, 0xAA, 0x55, 0x07, 0x00] := by decide

/-- Writing what an unlisted slot reads as takes the entry out. -/
theorem test_write_is_canonical :
    ((Memory.write [] 3 9).write 1 8).write 3 unwrittenSlot = [(1, 8)]
    ∧ Memory.read [(1, 8), (3, 9)] 3 = 9 ∧ Memory.read [(1, 8)] 2 = unwrittenSlot := by decide

/-! ## One step of each operation -/

/-- ENC with another frame size, for the vectors of 95_test_vectors.md that use one. -/
def twoSamples : Config.Params where
  n := 2
  magic0 := 0xAA
  magic1 := 0x55
  n_pos := by decide
  n_le := by decide
  magic_ne := by decide

/-- ENC after `N - 1` samples. -/
def almostFull : State := { State.reset with encWr := 511 }
/-- ENC at an offset of the frame. -/
def emitting (rd : Nat) : State := { State.reset with encPhase := .emit, encWr := 512, encRd := rd }
/-- RX in a phase. -/
def receiving (ph : RxPhase) : State := { State.reset with rxPhase := ph }
/-- RX with a payload of `count` samples at an index. -/
def inPayload (count : BitVec 16) (idx : Nat) (lo : Byte) : State :=
  { State.reset with rxPhase := .payload, decCount := count, decIdx := idx, decLo := lo }

/-- RX with an event owed to the consumer. -/
def pending (e : Pend) : State := { State.reset with oPend := e, decCount := 2, oCause := 4 }

/-- The example of R92. -/
theorem test_observe_last : exec (.observe 0xFFFE) almostFull
    = .next { almostFull with encBuf := [(511, 0xFFFE)], encWr := 512, encPhase := .emit } := rfl

/-- R92, a corner case: with `N = 1` every OBSERVE fills the buffer. -/
theorem test_observe_one (p : Config.Params) (hp : p.n = 1) (v : Sample) :
    ∃ t, execFor p (.observe v) State.reset = .next t ∧ t.encWr = 1 ∧ t.encPhase = .emit := by
  simp [execFor, observe, State.reset, hp]

/-- V11, step 2: with `N = 2` the second sample fills the buffer. -/
theorem test_observe_small : observe twoSamples 0xFFFD { State.reset with encBuf := [(0, 5)], encWr := 1 }
    = .next { State.reset with encBuf := [(0, 5), (1, 0xFFFD)], encWr := 2, encPhase := .emit } := rfl

/-- The example of R94. -/
theorem test_acqFault : exec (.acqFault 0) { State.reset with encWr := 100 }
    = .next { State.reset with encWr := 100, encPhase := .halt } := rfl

/-- The example of R93: byte 6 is the low byte of sample 1. -/
theorem test_emit_byte6 : exec .emit { emitting 6 with encBuf := [(1, 1)] }
    = .next { emitting 7 with encBuf := [(1, 1)], txOut := [0x01] } := rfl

/-- V11, step 10: the last byte returns ENC to ACCUM. -/
theorem test_emit_last : emit twoSamples
      { State.reset with encBuf := [(0, 5), (1, 0xFFFD)], encWr := 2, encRd := 7, encPhase := .emit }
    = .next { State.reset with encBuf := [(0, 5), (1, 0xFFFD)], txOut := [0xFF] } := rfl

/-- R96 at offsets 0 to 3, for `N = 512` (V16). -/
theorem test_emitted_header :
    [0, 1, 2, 3].map (emittedByte Config.params []) = [0xAA, 0x55, 0x00, 0x02] := by decide

/-- The example of R181. -/
theorem test_encReset : exec .encReset { State.reset with encPhase := .halt, encWr := 100 } = .next State.reset := rfl

/-- The example of R111. -/
theorem test_seek1Byte :
    exec (.seek1Byte 0xAA) (receiving .seek1) = .next (receiving .seek2)
    ∧ exec (.seek1Byte 0x55) (receiving .seek1) = .next (receiving .seek1) := ⟨rfl, rfl⟩

/-- The example of R112. -/
theorem test_seek2Byte :
    exec (.seek2Byte 0x55) (receiving .seek2) = .next (receiving .cntLo)
    ∧ exec (.seek2Byte 0xAA) (receiving .seek2) = .next (receiving .seek1) := ⟨rfl, rfl⟩

/-- The example of R113. -/
theorem test_seekTimeout : exec (.seekTimeout 0) (receiving .seek2)
    = .next { receiving .seek1 with oPend := .fault, oCause := 1 } := rfl

/-- The example of R114. -/
theorem test_seekEos : exec (.seekEos 0) (receiving .seek1)
    = .next { receiving .seek1 with oPend := .fault, oCause := 2 } := rfl

/-- V39, step 3: the high byte of `dec_count` keeps what it held. -/
theorem test_cntLoByte : exec (.cntLoByte 0x02) { receiving .cntLo with decCount := 0x7700 }
    = .next { receiving .cntHi with decCount := 0x7702 } := rfl

/-- The example of R132, and its corner case of a count of 0. -/
theorem test_cntHiByte :
    exec (.cntHiByte 0x02) { receiving .cntHi with decIdx := 9 } = .next (inPayload 512 0 0)
    ∧ exec (.cntHiByte 0x00) (receiving .cntHi) = .next { receiving .seek1 with oPend := .frame } := ⟨rfl, rfl⟩

/-- The example of R133. -/
theorem test_payloadByte_last : exec (.payloadByte 0x00) (inPayload 3 5 0x0C)
    = .next { inPayload 3 5 0x0C with decBuf := [(2, 0x000C)], oPend := .frame, rxPhase := .seek1 } := rfl

/-- V39, step 5: a byte of even index only waits. -/
theorem test_payloadByte_even : exec (.payloadByte 0x34) (inPayload 2 0 0) = .next (inPayload 2 1 0x34) := rfl

/-- The example of R134. -/
theorem test_decTimeout : exec (.decTimeout 0) (inPayload 3 5 0)
    = .next { inPayload 3 5 0 with oPend := .fault, oCause := 3, rxPhase := .seek1 } := rfl

/-- The example of R135. -/
theorem test_decEos : exec (.decEos 0) (receiving .cntHi)
    = .next { receiving .seek1 with oPend := .fault, oCause := 4 } := rfl

/-- The example of R137. -/
theorem test_handoff :
    exec .handoff { State.reset with decCount := 2, decBuf := [(0, 0x0001), (1, 0xFFFF)], oPend := .frame }
    = .next { State.reset with decCount := 2, decBuf := [(0, 0x0001), (1, 0xFFFF)], oOut := [.frame 2 [1, -1]] } := rfl

/-- The example of R182, with an event that is lost. -/
theorem test_rxReset : exec .rxReset { inPayload 9 7 0 with oPend := .fault }
    = .next { inPayload 9 7 0 with rxPhase := .seek1 } := rfl

/-- R81: the items of the frame of one sample. -/
theorem test_wire : exec (.wire [7]) State.reset = .next { State.reset with
    script := byteItems [0xAA, 0x55, 0x01, 0x00, 0x07, 0x00] } := rfl

theorem test_reserved : exec (.reservedRxKind3 0) State.reset = .refused .reservedRxKind := rfl

/-- R91: an OBSERVE waits while a frame is emitted, and a `tx` transfer behind it goes first. -/
theorem test_step_passes_a_waiting_item :
    step { emitting 0 with script := [.stok 5, .txReady] }
    = .next { emitting 1 with script := [.stok 5], txOut := [0xAA], draws := 1 } := rfl

/-- V41: with a frame pending a byte waits. -/
theorem test_step_waits : step { State.reset with oPend := .frame, script := [.rxtok (byteToken 0xAA)] }
    = .next { State.reset with oPend := .frame, script := [.rxtok (byteToken 0xAA)], draws := 1 } := rfl

/-- A word of the operation table placed first is what the first step after reset runs: the rows ACQFAULT, EMIT and
HANDOFF, the last two of which need a frame to emit or to hand over. -/
theorem test_withFetchWord :
    step (State.reset.withFetchWord 24 0x10000) = .next { State.reset with encPhase := .halt, draws := 1 }
    ∧ step (State.reset.withFetchWord 8 0) = .next { emitting 1 with txOut := [0xAA], draws := 1 }
    ∧ step (State.reset.withFetchWord 24 0x80000) = .next { State.reset with oOut := [.frame 0 []], draws := 1 } :=
  ⟨rfl, rfl, rfl⟩

/-- V39 between steps 8 and 9: the ports while a frame is pending. -/
theorem test_ports_of_a_pending_frame :
    let s := { State.reset with decCount := 2, decBuf := [(0, 0x1234), (1, 0xFFFE)], oPend := .frame }
    rxReady false s = false ∧ oValid false s = true ∧ oKind s = 1 ∧ oCount s = 2 ∧ oRdata s 0 = 0x1234
    ∧ oRdata s 1 = 0xFFFE := ⟨rfl, rfl, rfl, rfl, rfl, rfl⟩

/-- R30: SyncState. -/
theorem test_syncState : (receiving .seek2).syncState = .seekingSecondMagicByte
    ∧ (receiving .payload).syncState = .seekingFirstMagicByte := ⟨rfl, rfl⟩

/-- V2 a and V2 g. -/
theorem test_environment : [5000, 44100, 3].map tickPeriod = [some 200, some 22, some 333333]
    ∧ tickPeriod 0 = none ∧ windowAppend 3 [1, 2] [3, 4, 5] = [3, 4, 5] := by decide

/-! ## Every instruction completes somewhere, and the witnesses of the statements' hypotheses -/

/-- A state in which an instruction is enabled and that meets the invariant. -/
def stateFor : Instr → State
  | .wire _ | .observe _ | .acqFault _ | .encReset | .rxReset | .reservedRxKind3 _ => State.reset
  | .emit => emitting 0
  | .seek1Byte _ | .seekEos _ => receiving .seek1
  | .seek2Byte _ | .seekTimeout _ => receiving .seek2
  | .cntLoByte _ | .decTimeout _ => receiving .cntLo
  | .cntHiByte _ | .decEos _ => receiving .cntHi
  | .payloadByte _ => inPayload 1 0 0
  | .handoff => pending .fault

/-- Every instruction but the reserved kind is enabled in a state that meets RX's invariant. -/
theorem every_instruction_is_enabled_somewhere (i : Instr) : RxInv (stateFor i) ∧ enabled i (stateFor i)
    ∧ i.selectedIn (stateFor i).rxPhase := by
  cases i <;> exact ⟨⟨by simp [stateFor, State.reset, emitting, receiving, inPayload, pending],
    by simp [stateFor, State.reset, emitting, receiving, inPayload, pending],
    by simp [stateFor, State.reset, emitting, receiving, inPayload, pending]⟩, rfl, rfl⟩

/-- And every instruction but the reserved kind goes on there. -/
theorem every_instruction_goes_on_somewhere (i : Instr) (hw : i.wellFormed) (hr : ∀ x, i ≠ .reservedRxKind3 x) :
    ∃ t, exec i (stateFor i) = .next t := by
  cases i
  case wire samples =>
    have h : samples.length ≤ 65535 := by simpa [Instr.wellFormed] using hw
    exact ⟨_, if_pos h⟩
  case reservedRxKind3 x => exact absurd rfl (hr x)
  all_goals exact ⟨_, rfl⟩

/-- The boundaries of the clauses of the operation map: the last slot, the last byte, the last payload byte. -/
theorem operation_map_boundaries :
    (∃ t, exec (.observe 1) { State.reset with encWr := 510 } = .next t ∧ t.encPhase = .accum)
    ∧ (∃ t, exec (.observe 1) almostFull = .next t ∧ t.encPhase = .emit)
    ∧ (∃ t, exec .emit (emitting 1026) = .next t ∧ t.encPhase = .emit)
    ∧ (∃ t, exec .emit (emitting 1027) = .next t ∧ t.encPhase = .accum ∧ t.encRd = 0 ∧ t.encWr = 0)
    ∧ (∃ t, exec (.payloadByte 1) (inPayload 2 2 0) = .next t ∧ t.rxPhase = .payload)
    ∧ (∃ t, exec (.payloadByte 1) (inPayload 2 3 0) = .next t ∧ t.rxPhase = .seek1)
    ∧ (∃ t, exec (.payloadByte 1) (inPayload 65535 131069 0) = .next t ∧ t.oPend = .frame) :=
  ⟨⟨_, rfl, rfl⟩, ⟨_, rfl, rfl⟩, ⟨_, rfl, rfl⟩, ⟨_, rfl, rfl, rfl, rfl⟩, ⟨_, rfl, rfl⟩, ⟨_, rfl, rfl⟩, ⟨_, rfl, rfl⟩⟩

theorem witness_DecodeOfEncodeIsTheInstruction :
    (Instr.decEos 7).wellFormed = true ∧ (Instr.decEos 7).selectedIn .payload = true := ⟨rfl, rfl⟩
theorem witness_EncodeOfDecodeIsTheOffer : decode .payload (.rxtok 0x2FF) = .ok (.decEos 0xFF) := by decide
theorem witness_EveryTokenSelectsOneEnabledOperation :
    State.reset.encPhase = .accum ∧ State.reset.oPend = .none ∧ rxKind 0x2FF ≠ 3 := by decide
theorem witness_OperationNotEnabledChangesNothing : ¬ enabled (.observe 5) (emitting 0) ∧ ¬ enabled .handoff State.reset
    ∧ ¬ enabled (.seek2Byte 0x55) State.reset := by decide
theorem witness_PhaseAfterEachOperation : RxInv (inPayload 1 1 0) ∧ enabled (.payloadByte 3) (inPayload 1 1 0)
    ∧ ∃ t, exec (.payloadByte 3) (inPayload 1 1 0) = .next t :=
  ⟨⟨by decide, by decide, by decide⟩, rfl, _, rfl⟩
theorem witness_WireExpandsToItsBytes : ([7] : List Sample).length ≤ 65535 := by decide
theorem witness_ReservedKindIsRefused : rxKind 0x300 = 3 := by decide
theorem witness_ObserveStoresTheSample :
    almostFull.encBuf.wf ∧ almostFull.encPhase = .accum ∧ almostFull.encWr < 512 := by decide
theorem witness_AcqFaultHaltsTheEncoder : almostFull.encPhase = .accum ∧ (emitting 0).encPhase = .emit := ⟨rfl, rfl⟩
theorem witness_OnlyResetLeavesHalt : (haltEnc almostFull).encPhase = .halt ∧ Instr.emit ≠ .encReset
    ∧ exec .emit (haltEnc almostFull) = .next (haltEnc almostFull) := ⟨rfl, by decide, rfl⟩
theorem witness_EmittedByteIsTheFrameByte : 7 < twoSamples.frameLen ∧ 1027 < Config.params.frameLen := by decide
theorem witness_EmitPutsTheNextFrameByte : (emitting 1027).encPhase = .emit ∧ (emitting 1027).encRd < 1028
    ∧ (emitting 1026).encPhase = .emit ∧ (emitting 1026).encRd < 1028 := by decide
theorem witness_WholeFrameIsEmitted :
    ∃ (s : State) (rest : List Offer), s.encPhase = .emit ∧ s.encWr = 512 ∧ s.encRd = 0 ∧ s.script = List.replicate 1028 Offer.txReady ++ rest :=
  ⟨{ emitting 0 with script := List.replicate 1028 Offer.txReady ++ [Offer.encRst] }, [Offer.encRst], rfl, rfl, rfl, rfl⟩
theorem witness_FrameCycleEmitsTheAcceptedSamples :
    ∃ (s : State) (samples : List Sample) (rest : List Offer), s.encBuf.wf ∧ s.encPhase = .accum ∧ s.encWr = 0 ∧ s.encRd = 0 ∧ samples.length = 512
      ∧ s.script = sampleItems samples ++ List.replicate 1028 Offer.txReady ++ rest :=
  ⟨{ State.reset with script := sampleItems (List.replicate 512 7) ++ List.replicate 1028 Offer.txReady ++ [] },
    List.replicate 512 7, [], by decide, rfl, rfl, rfl, List.length_replicate, rfl⟩
theorem witness_ResetCutsTheFrameShort :
    let s := { emitting 0 with script := List.replicate 5 Offer.txReady ++ Offer.encRst :: [] }
    s.encPhase = .emit ∧ s.encWr = 512 ∧ s.encRd = 0 ∧ 5 < 1028
    ∧ s.script = List.replicate 5 Offer.txReady ++ Offer.encRst :: [] := by decide
theorem witness_BytesPutCountWholeFrames : Instr.emit ≠ .encReset ∧ (∃ t, exec .emit (emitting 0) = .next t)
    ∧ (emitting 0).txOut.length = 0 + (1028 * 0 + (emitting 0).encRd) := ⟨by decide, ⟨_, rfl⟩, rfl⟩
theorem witness_SeekOneMatchesTheFirstMarkerByte :
    (receiving .seek1).rxPhase = .seek1 ∧ (receiving .seek1).oPend = .none := ⟨rfl, rfl⟩
theorem witness_SeekTwoMatchesTheSecondMarkerByte :
    (receiving .seek2).rxPhase = .seek2 ∧ (receiving .seek2).oPend = .none := ⟨rfl, rfl⟩
theorem witness_SeekingInterruptedRaisesTransportFault :
    ((receiving .seek2).rxPhase = .seek1 ∨ (receiving .seek2).rxPhase = .seek2)
    ∧ (receiving .seek2).oPend = .none := by decide
theorem witness_ScanAlignsAfterNoiseWithoutMagic :
    let s := { State.reset with script := byteItems ([0x00, 0xFF, 0x55] ++ [0xAA, 0x55]) ++ [] }
    s.rxPhase = .seek1 ∧ s.oPend = .none ∧ (∀ b ∈ ([0x00, 0xFF, 0x55] : List Byte), b ≠ 0xAA)
    ∧ s.script = byteItems ([0x00, 0xFF, 0x55] ++ [0xAA, 0x55]) ++ [] := by decide
theorem witness_RunOfMagicAlignsOnlyIfOdd :
    let s (r : Nat) := { State.reset with script := byteItems (List.replicate r 0xAA ++ [0x55]) ++ [] }
    (s 3).rxPhase = .seek1 ∧ (s 3).oPend = .none ∧ (s 2).rxPhase = .seek1 ∧ (s 2).oPend = .none
    ∧ (s 0).script = byteItems (List.replicate 0 0xAA ++ [0x55]) ++ [] := by decide
theorem witness_ScanFollowsTheGreedyPositions :
    let s (bytes : List Byte) := { State.reset with script := byteItems bytes ++ [] }
    (s [0xAA, 0xAA, 0xAA, 0x55, 9]).rxPhase = .seek1 ∧ (s [0xAA, 0xAA, 0xAA, 0x55, 9]).oPend = .none
    ∧ scanAlign Config.params [0xAA, 0xAA, 0xAA, 0x55, 9] = some [9]
    ∧ scanAlign Config.params [0xAA, 0xAA, 0x55] = none := by decide
theorem witness_OnlyTheMarkerEntersTheDecoder : exec (.seek2Byte 0x55) (receiving .seek2) = .next (receiving .cntLo)
    ∧ (receiving .cntLo).rxPhase = .cntLo ∧ (receiving .seek2).rxPhase ≠ .cntLo := ⟨rfl, rfl, by decide⟩
theorem witness_CountLowByteIsTaken :
    (receiving .cntLo).rxPhase = .cntLo ∧ (receiving .cntLo).oPend = .none := ⟨rfl, rfl⟩
theorem witness_CountHighByteStartsThePayload :
    (receiving .cntHi).rxPhase = .cntHi ∧ (receiving .cntHi).oPend = .none
    ∧ word16 0 (lowByte (receiving .cntHi).decCount) = 0 ∧ word16 2 (lowByte (receiving .cntHi).decCount) ≠ 0 := by
  decide
theorem witness_PayloadByteIsPlaced :
    (inPayload 65535 131069 0).decBuf.wf ∧ (inPayload 65535 131069 0).rxPhase = .payload
    ∧ (inPayload 65535 131069 0).oPend = .none ∧ (inPayload 65535 131069 0).decIdx ≤ 131069
    ∧ (inPayload 2 0 0).decIdx ≤ 131069 := by decide
theorem witness_ShortReadRaisesShortPayloadFault :
    ((inPayload 3 5 0).rxPhase = .cntLo ∨ (inPayload 3 5 0).rxPhase = .cntHi ∨ (inPayload 3 5 0).rxPhase = .payload)
    ∧ (inPayload 3 5 0).oPend = .none := by decide
theorem witness_FaultEntryChangesThreeRegisters :
    ∃ t, exec (.decTimeout 0) (inPayload 3 5 0) = .next t ∧ t.oPend = .fault ∧ (inPayload 3 5 0).oPend ≠ .fault :=
  ⟨_, rfl, rfl, by decide⟩
theorem witness_HandoffDeliversThePendingEvent :
    (pending .frame).oPend = .frame ∧ (pending .fault).oPend = .fault ∧ 1 < (pending .frame).decCount.toNat := by decide
theorem witness_PortsShowWhatIsHandedOver : (pending .frame).oPend = .frame := rfl
theorem witness_DecodingGoesByByteCount :
    let s := { receiving .cntLo with script := byteItems (1 :: 0 :: [0xAA, 0x55]) ++ [] }
    s.decBuf.wf ∧ s.rxPhase = .cntLo ∧ s.oPend = .none
    ∧ ([0xAA, 0x55] : List Byte).length = 2 * (word16 0 1).toNat
    ∧ s.script = byteItems (1 :: 0 :: [0xAA, 0x55]) ++ [] := by decide
theorem witness_WholeFrameIsReceived :
    let s := { State.reset with script := byteItems (encodeFrame Config.params [0x55AA]) ++ Offer.oReady :: [] }
    s.decBuf.wf ∧ s.rxPhase = .seek1 ∧ s.oPend = .none ∧ 1 ≤ ([0x55AA] : List Sample).length
    ∧ ([0x55AA] : List Sample).length ≤ 65535
    ∧ s.script = byteItems (encodeFrame Config.params [0x55AA]) ++ Offer.oReady :: [] := by decide
theorem witness_FormatRoundTrip : ∀ v ∈ ([-32768, -1, 0, 32767] : List Int), -32768 ≤ v ∧ v ≤ 32767 := by decide
/-- A frame of two samples cut after 7 bytes by a TIMEOUT, and a whole one after it. -/
def cutThenWhole : List Offer :=
  byteItems ((encodeFrame Config.params [10, 11]).take 7) ++ Offer.rxtok (mkRxToken 1 0) :: Offer.oReady
    :: (byteItems (encodeFrame Config.params [20]) ++ Offer.oReady :: [])
theorem witness_TruncatedFrameIsDiscardedAndTheNextDecoded :
    let s := { State.reset with script := cutThenWhole }
    s.decBuf.wf ∧ s.rxPhase = .seek1 ∧ s.oPend = .none ∧ ([10, 11] : List Sample).length ≤ 65535
    ∧ 1 ≤ ([20] : List Sample).length ∧ ([20] : List Sample).length ≤ 65535 ∧ 2 ≤ 7
    ∧ 7 < 4 + 2 * ([10, 11] : List Sample).length ∧ (rxKind (mkRxToken 1 0) = 1 ∨ rxKind (mkRxToken 1 0) = 2)
    ∧ (rxKind (mkRxToken 2 0) = 1 ∨ rxKind (mkRxToken 2 0) = 2) ∧ s.script = cutThenWhole := by decide
/-- One witness for the two statements whose only premise is that an instruction goes on and what it changed. -/
theorem witness_OnlyTheListedOperationsWrite_and_OutputsAreNeverRecalled :
    (∃ t, exec (.observe 5) State.reset = .next t ∧ t.encBuf ≠ State.reset.encBuf ∧ t.encWr ≠ State.reset.encWr)
    ∧ (∃ t, exec .emit (emitting 0) = .next t ∧ t.encRd ≠ (emitting 0).encRd ∧ t.txOut ≠ (emitting 0).txOut)
    ∧ (∃ t, exec (.acqFault 0) State.reset = .next t ∧ t.encPhase ≠ State.reset.encPhase)
    ∧ (∃ t, exec (.seek1Byte 0xAA) State.reset = .next t ∧ t.rxPhase ≠ State.reset.rxPhase)
    ∧ (∃ t, exec (.cntLoByte 1) (receiving .cntLo) = .next t ∧ lowByte t.decCount ≠ lowByte (receiving .cntLo).decCount)
    ∧ (∃ t, exec (.cntHiByte 1) (receiving .cntHi) = .next t
        ∧ highByte t.decCount ≠ highByte (receiving .cntHi).decCount)
    ∧ (∃ t, exec (.payloadByte 9) (inPayload 2 0 3) = .next t ∧ t.decLo ≠ (inPayload 2 0 3).decLo
        ∧ t.decIdx ≠ (inPayload 2 0 3).decIdx)
    ∧ (∃ t, exec (.payloadByte 9) (inPayload 2 3 3) = .next t ∧ t.decBuf ≠ (inPayload 2 3 3).decBuf
        ∧ t.oPend ≠ (inPayload 2 3 3).oPend)
    ∧ (∃ t, exec (.seekEos 0) State.reset = .next t ∧ t.oCause ≠ State.reset.oCause)
    ∧ (∃ t, exec .handoff (pending .fault) = .next t ∧ t.oPend ≠ (pending .fault).oPend
        ∧ t.oOut ≠ (pending .fault).oOut) :=
  ⟨⟨_, rfl, by decide, by decide⟩, ⟨_, rfl, by decide, by decide⟩, ⟨_, rfl, by decide⟩, ⟨_, rfl, by decide⟩,
    ⟨_, rfl, by decide⟩, ⟨_, rfl, by decide⟩, ⟨_, rfl, by decide, by decide⟩, ⟨_, rfl, by decide, by decide⟩,
    ⟨_, rfl, by decide⟩, ⟨_, rfl, by decide, by decide⟩⟩
theorem witness_BlocksDoNotInfluenceEachOther :
    (∃ t, exec .emit (emitting 0) = .next t) ∧ Instr.emit.ofEnc
    ∧ EncSame (emitting 0) { emitting 0 with rxPhase := .payload }
    ∧ (∃ t, exec (.seekEos 0) State.reset = .next t) ∧ (Instr.seekEos 0).ofRx ∧ RxSame State.reset (emitting 0) :=
  ⟨⟨_, rfl⟩, rfl, ⟨rfl, rfl, rfl, rfl⟩, ⟨_, rfl⟩, rfl, ⟨rfl, rfl, rfl, rfl, rfl, rfl, rfl⟩⟩
theorem witness_StepRunsTheDecodedInstruction :
    let s := { emitting 0 with script := [.stok 5] ++ .txReady :: [.rxRst] }
    s.script = [.stok 5] ++ .txReady :: [.rxRst] ∧ (∀ w ∈ [Offer.stok 5], offerReady s w = false)
    ∧ offerReady s .txReady = true ∧ decode s.rxPhase .txReady = .ok .emit ∧ Instr.emit.wellFormed := by decide
theorem witness_StepWaitsWhenNothingIsReady :
    let s := { emitting 0 with script := [.stok 5, .oReady] }
    ∀ o ∈ s.script, offerReady s o = false := by decide
theorem witness_StepKeepsTheInvariant : Inv Config.params { State.reset with script := [.stok 5] }
    ∧ ∃ t, step { State.reset with script := [.stok 5] } = .next t :=
  ⟨⟨⟨by decide, by decide, by decide⟩, ⟨by decide, by decide, by decide⟩, ⟨by decide, by decide⟩,
    ⟨by decide, by decide⟩, by simp [State.reset]⟩, _, rfl⟩
theorem witness_NoStepFaultsUnderTheInvariant : Inv Config.params { inPayload 1 1 0 with script := [.rxtok 5] } :=
  ⟨⟨by decide, by decide, by decide⟩, ⟨by decide, by decide, by decide⟩, ⟨by decide, by decide⟩,
    ⟨by decide, by decide⟩, by simp [inPayload, State.reset]⟩
theorem witness_FaultsOnlyAtMissingSlots :
    (∃ r, exec (.observe 1) { State.reset with encWr := 512 } = .fault r) ∧ (∃ r, exec .emit (emitting 1028) = .fault r)
    ∧ (∃ r, exec (.payloadByte 1) (inPayload 1 131071 0) = .fault r)
    ∧ (∃ t, exec (.payloadByte 1) (inPayload 1 131069 0) = .next t) := ⟨⟨_, rfl⟩, ⟨_, rfl⟩, ⟨_, rfl⟩, ⟨_, rfl⟩⟩
theorem witness_EncResetForgetsThePast :
    let t := { haltEnc almostFull with encBuf := [(3, 9)] }
    State.reset.encBuf.wf ∧ t.encBuf.wf ∧ RxSame State.reset t ∧ InputsSame State.reset t ∧ TracesSame State.reset t
    ∧ (∃ s', exec .encReset State.reset = .next s') ∧ ∃ t', exec .encReset t = .next t' :=
  ⟨by decide, by decide, ⟨rfl, rfl, rfl, rfl, rfl, rfl, rfl⟩, ⟨rfl, rfl⟩, ⟨rfl, rfl⟩, ⟨_, rfl⟩, _, rfl⟩
theorem witness_RxResetForgetsThePast :
    let t := { inPayload 7 5 3 with decBuf := [(3, 9)] }
    State.reset.decBuf.wf ∧ t.decBuf.wf ∧ EncSame State.reset t ∧ InputsSame State.reset t ∧ TracesSame State.reset t
    ∧ (∃ s', exec .rxReset State.reset = .next s') ∧ ∃ t', exec .rxReset t = .next t' :=
  ⟨by decide, by decide, ⟨rfl, rfl, rfl, rfl⟩, ⟨rfl, rfl⟩, ⟨rfl, rfl⟩, ⟨_, rfl⟩, _, rfl⟩
theorem witness_EventsDoNotDependOnHandoverTiming :
    State.reset.oPend = .none ∧ (∀ o ∈ [.oReady, timeoutItem, .oReady], o = .oReady ∨ ∃ w, o = Offer.rxtok w)
    ∧ (∃ e, takeEagerly ([.oReady, timeoutItem, .oReady].filterMap Offer.rxToken?) State.reset = .next e)
    ∧ ∃ t, run 2 { State.reset with script := [.oReady, timeoutItem, .oReady] } = .next t
      ∧ t.script.filterMap Offer.rxToken? = [] ∧ t.oPend = .none :=
  ⟨rfl, by simp [timeoutItem], ⟨_, rfl⟩, _, rfl, rfl, rfl⟩
/-- Frames of one sample. -/
def oneSample : Config.Params where
  n := 1
  magic0 := 0xAA
  magic1 := 0x55
  n_pos := by decide
  n_le := by decide
  magic_ne := by decide

/-- The blocks with one frame of the sample 5 put on the link and RX somewhere inside it, after a TIMEOUT in SEEK1. -/
def receivingFive (ph : RxPhase) (count : BitVec 16) (idx : Nat) (lo : Byte) : State :=
  { State.reset with encBuf := [(0, 5)], txOut := [0xAA, 0x55, 1, 0, 5, 0], oOut := [.fault 1], oCause := 1, rxPhase := ph,
                     decCount := count, decIdx := idx, decLo := lo }

theorem one_frame_in_flight : ∃ k, Linked.Reached oneSample
    ⟨receivingFive .seek1 0 0 0, [0xAA, 0x55, 1, 0, 5, 0], k, [5], true⟩ := by
  have r1 := Linked.Reached.step .reset (.timeout (p := oneSample) (w := mkRxToken 1 0) rfl rfl rfl)
  have r2 := r1.step (.handoff rfl rfl)
  have r3 := r2.step (.observe (v := 5) rfl rfl)
  have e1 := r3.step (.emit (b := 0xAA) rfl rfl rfl)
  have e2 := e1.step (.emit (b := 0x55) rfl rfl rfl)
  have e3 := e2.step (.emit (b := 1) rfl rfl rfl)
  have e4 := e3.step (.emit (b := 0) rfl rfl rfl)
  have e5 := e4.step (.emit (b := 5) rfl rfl rfl)
  exact ⟨_, e5.step (.emit (b := 0) rfl rfl rfl)⟩

/-- And with that frame received and delivered. -/
theorem witness_DeliveredSamplesArePrefixOfAccepted : ∃ c, Linked.Reached oneSample c ∧ c.undisturbed ∧ c.accepted = [5]
    ∧ c.machine.oOut = [.fault 1, .frame 1 [5]] := by
  obtain ⟨k, r⟩ := one_frame_in_flight
  have h3 : takeOfferFor oneSample (.rxtok (byteToken 1)) (receivingFive .cntLo 0 0 0)
      = .next (receivingFive .cntHi 1 0 0) := rfl
  have h4 : takeOfferFor oneSample (.rxtok (byteToken 0)) (receivingFive .cntHi 1 0 0)
      = .next (receivingFive .payload 1 0 0) := rfl
  have h5 : takeOfferFor oneSample (.rxtok (byteToken 5)) (receivingFive .payload 1 0 0)
      = .next (receivingFive .payload 1 1 5) := rfl
  have h6 : takeOfferFor oneSample (.rxtok (byteToken 0)) (receivingFive .payload 1 1 5)
      = .next { receivingFive .seek1 1 1 5 with decBuf := [(0, 5)], oPend := .frame } := rfl
  have d1 := r.step (.deliver (t := receivingFive .seek2 0 0 0) rfl rfl rfl)
  have d2 := d1.step (.deliver (t := receivingFive .cntLo 0 0 0) rfl rfl rfl)
  have d6 := (((d2.step (.deliver rfl rfl h3)).step (.deliver rfl rfl h4)).step (.deliver rfl rfl h5)).step
    (.deliver rfl rfl h6)
  exact ⟨_, d6.step (.handoff rfl rfl), rfl, rfl, rfl⟩

/-- The joined blocks with one of two samples accepted. -/
def oneAccepted : Linked := ⟨{ State.reset with encBuf := [(0, 5)], encWr := 1 }, [], [], [5], true⟩
theorem witness_LinkedStepKeepsTheInvariant : Linked.Inv twoSamples oneAccepted
    ∧ (∃ d, Linked.Step twoSamples oneAccepted d ∧ d.machine.encPhase = .emit)
    ∧ ∃ d, Linked.Step twoSamples oneAccepted d ∧ d.machine.oPend = .fault :=
  ⟨⟨⟨⟨by decide, by decide, by decide⟩, ⟨by decide, by decide, by decide⟩, ⟨by decide, by decide⟩,
      ⟨by decide, by decide⟩, by simp [oneAccepted, State.reset]⟩, rfl, by decide,
      fun _ => ⟨[], [], by simp, rfl, rfl, rfl, rfl, by simp [oneAccepted, eventsOwed, pendingEvent, State.reset]⟩⟩,
    ⟨_, .observe (v := 6) rfl rfl, rfl⟩, ⟨_, .eos (w := mkRxToken 2 0) rfl rfl rfl rfl, rfl⟩⟩
theorem witness_StepKeepsTheInvariantForAnyParameters :
    Inv twoSamples { State.reset with encWr := 1, script := [.stok 5] }
    ∧ ∃ t, stepFor twoSamples { State.reset with encWr := 1, script := [.stok 5] } = .next t ∧ t.encPhase = .emit :=
  ⟨⟨⟨by decide, by decide, by decide⟩, ⟨by decide, by decide, by decide⟩, ⟨by decide, by decide⟩,
    ⟨by decide, by decide⟩, by simp [State.reset]⟩, _, rfl, rfl⟩
theorem witness_FrameCycleForAnyParameters :
    let s := { State.reset with script := sampleItems [5] ++ List.replicate oneSample.frameLen Offer.txReady ++ [] }
    s.encBuf.wf ∧ s.encPhase = .accum ∧ s.encWr = 0 ∧ s.encRd = 0 ∧ ([5] : List Sample).length = oneSample.n
    ∧ s.script = sampleItems [5] ++ List.replicate oneSample.frameLen Offer.txReady ++ [] := by decide
theorem witness_DeadlinesSpanWholePeriods : 1 ≤ 5000 := by decide

end Sys2Proof.Tests
end

namespace Sys2Proof.Machine

section Blocks

variable {p : Config.Params} {i : Instr} {s s' t u : State}

/-! ## What an instruction leaves alone

Every instruction works in one block: the registers of the other keep their values, and so does the trace of the other's
output channel (R3, R39). -/

theorem EncSame.refl (s : State) : EncSame s s := ⟨rfl, rfl, rfl, rfl⟩

theorem EncSame.trans (h : EncSame s t) (k : EncSame t u) : EncSame s u :=
  ⟨k.buf.trans h.buf, k.wr.trans h.wr, k.rd.trans h.rd, k.phase.trans h.phase⟩

theorem RxSame.refl (s : State) : RxSame s s := ⟨rfl, rfl, rfl, rfl, rfl, rfl, rfl⟩

theorem RxSame.trans (h : RxSame s t) (k : RxSame t u) : RxSame s u :=
  ⟨k.phase.trans h.phase, k.count.trans h.count, k.lo.trans h.lo, k.idx.trans h.idx, k.buf.trans h.buf,
    k.pend.trans h.pend, k.cause.trans h.cause⟩

/-- The bytes an instruction puts on `tx` where it is enabled (R93). -/
def bytesPut (p : Config.Params) (i : Instr) (s : State) : List Byte :=
  match i with
  | .emit => [emittedByte p s.encBuf s.encRd]
  | _ => []

/-- The events an instruction delivers on `o` where it is enabled (R137). -/
def eventsDelivered (i : Instr) (s : State) : List Event :=
  match i with
  | .handoff => (pendingEvent s).toList
  | _ => []

theorem rxSame_emitNext (h : RxSame s t) : RxSame s (emitNext p t) := by
  rcases emitNext_cases p t with ⟨-, e⟩ | ⟨-, e⟩ <;> (rw [e]; exact h.trans ⟨rfl, rfl, rfl, rfl, rfl, rfl, rfl⟩)

@[simp] theorem emitNext_txOut (p : Config.Params) (s : State) : (emitNext p s).txOut = s.txOut := by
  rcases emitNext_cases p s with ⟨-, h⟩ | ⟨-, h⟩ <;> rw [h]

@[simp] theorem emitNext_oOut (p : Config.Params) (s : State) : (emitNext p s).oOut = s.oOut := by
  rcases emitNext_cases p s with ⟨-, h⟩ | ⟨-, h⟩ <;> rw [h]

theorem encSame_startPayload (h : EncSame s t) : EncSame s (startPayload t) := by
  rcases startPayload_cases t with ⟨-, e⟩ | ⟨-, e⟩ <;> (rw [e]; exact h.trans ⟨rfl, rfl, rfl, rfl⟩)

@[simp] theorem startPayload_txOut (s : State) : (startPayload s).txOut = s.txOut := by
  rcases startPayload_cases s with ⟨-, h⟩ | ⟨-, h⟩ <;> simp [h]

@[simp] theorem startPayload_oOut (s : State) : (startPayload s).oOut = s.oOut := by
  rcases startPayload_cases s with ⟨-, h⟩ | ⟨-, h⟩ <;> simp [h]

theorem encSame_payloadNext (h : EncSame s t) : EncSame s (payloadNext t) := by
  rcases payloadNext_cases t with ⟨-, e⟩ | ⟨-, e⟩ <;> (rw [e]; exact h.trans ⟨rfl, rfl, rfl, rfl⟩)

@[simp] theorem payloadNext_txOut (s : State) : (payloadNext s).txOut = s.txOut := by
  rcases payloadNext_cases s with ⟨-, h⟩ | ⟨-, h⟩ <;> simp [h]

@[simp] theorem payloadNext_oOut (s : State) : (payloadNext s).oOut = s.oOut := by
  rcases payloadNext_cases s with ⟨-, h⟩ | ⟨-, h⟩ <;> simp [h]

/-- An operation of ENC writes no register of RX. -/
theorem Effect.rxSame_of_ofEnc (h : Effect p i s t) (hi : i.ofEnc) : RxSame s t := by
  cases i <;> simp only [Instr.ofEnc, Bool.false_eq_true] at hi
  case observe v => obtain ⟨-, rfl⟩ := h; exact ⟨rfl, rfl, rfl, rfl, rfl, rfl, rfl⟩
  case acqFault x => cases h; exact ⟨rfl, rfl, rfl, rfl, rfl, rfl, rfl⟩
  case emit =>
    obtain ⟨-, rfl⟩ := h
    exact rxSame_emitNext ⟨rfl, rfl, rfl, rfl, rfl, rfl, rfl⟩
  case encReset => cases h; exact ⟨rfl, rfl, rfl, rfl, rfl, rfl, rfl⟩

/-- An operation of RX writes no register of ENC. -/
theorem Effect.encSame_of_ofRx (h : Effect p i s t) (hi : i.ofRx) : EncSame s t := by
  cases i <;> simp only [Instr.ofRx, Bool.false_eq_true] at hi
  case cntHiByte b => cases h; exact encSame_startPayload ⟨rfl, rfl, rfl, rfl⟩
  case payloadByte b =>
    rcases h with ⟨-, rfl⟩ | ⟨-, -, rfl⟩ <;> exact encSame_payloadNext ⟨rfl, rfl, rfl, rfl⟩
  case handoff => obtain ⟨e, -, rfl⟩ := h; exact ⟨rfl, rfl, rfl, rfl⟩
  all_goals cases h; exact ⟨rfl, rfl, rfl, rfl⟩

/-- What an instruction adds to the trace of `tx`. -/
theorem Effect.txOut_eq (h : Effect p i s t) : t.txOut = s.txOut ++ bytesPut p i s := by
  cases i
  case wire => obtain ⟨-, rfl⟩ := h; simp [bytesPut]
  case observe => obtain ⟨-, rfl⟩ := h; simp [bytesPut]
  case emit => obtain ⟨-, rfl⟩ := h; simp [bytesPut]
  case cntHiByte => cases h; simp [bytesPut]
  case reservedRxKind3 => cases h
  case payloadByte => rcases h with ⟨-, rfl⟩ | ⟨-, -, rfl⟩ <;> simp [bytesPut]
  case handoff => obtain ⟨e, -, rfl⟩ := h; simp [bytesPut]
  all_goals cases h; exact (List.append_nil _).symm

/-- What an instruction adds to the trace of `o`. -/
theorem Effect.oOut_eq (h : Effect p i s t) : t.oOut = s.oOut ++ eventsDelivered i s := by
  cases i
  case wire => obtain ⟨-, rfl⟩ := h; simp [eventsDelivered]
  case observe => obtain ⟨-, rfl⟩ := h; simp [eventsDelivered]
  case emit => obtain ⟨-, rfl⟩ := h; simp [eventsDelivered]
  case cntHiByte => cases h; simp [eventsDelivered]
  case reservedRxKind3 => cases h
  case payloadByte => rcases h with ⟨-, rfl⟩ | ⟨-, -, rfl⟩ <;> simp [eventsDelivered]
  case handoff => obtain ⟨e, he, rfl⟩ := h; simp [eventsDelivered, he]
  all_goals cases h; exact (List.append_nil _).symm

theorem bytesPut_of_ofRx (hi : i.ofRx) : bytesPut p i s = [] := by cases i <;> cases hi <;> rfl

theorem eventsDelivered_of_ofEnc (hi : i.ofEnc) : eventsDelivered i s = [] := by cases i <;> cases hi <;> rfl

/-! ## An instruction's answer from its effect -/

/-- The phases of the row of an operation that takes an `rx` token (R78). -/
def rowPhases (i : Instr) : List RxPhase :=
  match i with
  | .seek1Byte _ => [.seek1]
  | .seek2Byte _ => [.seek2]
  | .cntLoByte _ => [.cntLo]
  | .cntHiByte _ => [.cntHi]
  | .payloadByte _ => [.payload]
  | .seekTimeout _ | .seekEos _ => [.seek1, .seek2]
  | .decTimeout _ | .decEos _ => [.cntLo, .cntHi, .payload]
  | _ => []

theorem rxTakesIn_rowPhases (hi : i.takesRxToken) (s : State) : rxTakesIn (rowPhases i) s = enabled i s := by
  have selected : i.selectedIn s.rxPhase ↔ s.rxPhase ∈ rowPhases i := by
    cases i <;> cases s.rxPhase <;> simp_all [Instr.takesRxToken, Instr.selectedIn, RxPhase.seeking, rowPhases]
  have unfolded : enabled i s = decide (s.oPend = .none ∧ i.selectedIn s.rxPhase) := by
    cases i <;> cases hi <;> rfl
  simp [unfolded, selected, rxTakesIn]

/-- Where an instruction is enabled and has an effect, that is its answer: the converse of `execFor_next`. -/
theorem execFor_of_effect (he : enabled i s) (h : Effect p i s t) : execFor p i s = .next t := by
  have takes (hi : i.takesRxToken) : rxTakesIn (rowPhases i) s := rxTakesIn_rowPhases hi s ▸ he
  cases i
  case wire => obtain ⟨hl, rfl⟩ := h; exact if_pos hl
  case observe =>
    obtain ⟨hw, rfl⟩ := h
    have hp : s.encPhase = .accum := of_decide_eq_true he
    simp [execFor, observe, hp, hw]
  case acqFault => cases h; exact if_pos (of_decide_eq_true he)
  case emit => obtain ⟨hr, rfl⟩ := h; exact (if_pos (of_decide_eq_true he)).trans (if_pos hr)
  case encReset => cases h; rfl
  case seek1Byte b =>
    cases h
    have hp : rxTakesIn [.seek1] s := takes rfl
    have hs : s = { s with rxPhase := .seek1 } := by rw [← (rxTakesIn_iff.1 hp).2 |> List.mem_singleton.1]
    simp only [execFor, seek1Byte, hp, if_true]
    split
    · rfl
    · rw [← hs]
  case payloadByte =>
    have hp : rxTakesIn [.payload] s := takes rfl
    rcases h with ⟨hx, rfl⟩ | ⟨hx, hc, rfl⟩
    · simp [execFor, execPayloadByte, hp, hx]
    · simp [execFor, execPayloadByte, hp, hx, Config.decCap, hc]
  case handoff => obtain ⟨e, hp, rfl⟩ := h; simp [execFor, execHandoff, hp]
  case rxReset => cases h; rfl
  case reservedRxKind3 => cases h
  all_goals cases h; exact if_pos (takes rfl)

/-- An instruction that is not enabled does nothing (R78; log 5). -/
theorem execFor_of_not_enabled (he : ¬ enabled i s) : execFor p i s = .next s := by
  have refuses (hi : i.takesRxToken) : ¬ rxTakesIn (rowPhases i) s := rxTakesIn_rowPhases hi s ▸ he
  cases i
  case observe | acqFault | emit => exact if_neg fun hp => he (decide_eq_true hp)
  case handoff =>
    have hp : s.oPend = .none := not_not.1 fun hp => he (decide_eq_true hp)
    simp [execFor, execHandoff, pendingEvent_eq_none.2 hp]
  case wire | encReset | rxReset | reservedRxKind3 => exact absurd rfl he
  all_goals exact if_neg (refuses rfl)

end Blocks

end Sys2Proof.Machine

namespace Sys2Proof.Machine

section Invariant

variable {p : Config.Params} {i : Instr} {s t : State}

/-! ## The invariant of the machine (R25, R38) -/

theorem four_le_frameLen (p : Config.Params) : 4 ≤ p.frameLen := Nat.le_add_right 4 _

theorem EncInv.of_encSame (h : EncSame s t) (hi : EncInv p s) : EncInv p t :=
  ⟨by rw [h.phase, h.wr, h.rd]; exact hi.accum, by rw [h.phase, h.wr, h.rd]; exact hi.emit,
    by rw [h.phase, h.wr, h.rd]; exact hi.halt⟩

theorem RxInv.of_rxSame (h : RxSame s t) (hi : RxInv s) : RxInv t :=
  ⟨by rw [h.pend, h.phase]; exact hi.pendSeeks, by rw [h.phase, h.count, h.idx]; exact hi.payload,
    by rw [h.pend, h.cause]; exact hi.cause⟩

/-- What the environment offers and the bytes put so far have no part in the invariant. -/
theorem Inv.of_same (he : EncSame s t) (hr : RxSame s t) (ho : t.oOut = s.oOut) (h : Inv p s) : Inv p t :=
  ⟨h.enc.of_encSame he, h.rx.of_rxSame hr, he.buf ▸ h.encBuf, hr.buf ▸ h.decBuf, ho ▸ h.events⟩

theorem BufferInv.write {cap k : Nat} {m : Memory} (h : BufferInv cap m) (hk : k < cap) (v : Sample) :
    BufferInv cap (m.write k v) :=
  ⟨Memory.write_wf h.1 k v, Memory.write_below h.2 hk v⟩

/-- An operation of ENC keeps the bounds of its indices (R25). -/
theorem Effect.encInv (h : Effect p i s t) (hi : i.ofEnc) (hs : EncInv p s) (on : enabled i s) : EncInv p t := by
  have hn := p.n_pos
  have hl := four_le_frameLen p
  cases i <;> simp only [Instr.ofEnc, Bool.false_eq_true] at hi
  case observe v =>
    obtain ⟨hw, rfl⟩ := h
    have hr : s.encRd = 0 := (hs.accum (of_decide_eq_true on)).2
    by_cases last : s.encWr + 1 = p.n
    · exact ⟨by simp [last], by simp [last, hr]; omega, by simp [last]⟩
    · exact ⟨by simp [last, hr]; omega, by simp [last], by simp [last]⟩
  case acqFault x =>
    cases h
    exact ⟨by simp, by simp, fun _ => hs.accum (of_decide_eq_true on)⟩
  case emit =>
    obtain ⟨hr, rfl⟩ := h
    have hp : s.encPhase = .emit := of_decide_eq_true on
    have hw : s.encWr = p.n := (hs.emit hp).1
    rcases emitNext_cases p (txPut (emittedByte p s.encBuf s.encRd) s) with ⟨last, e⟩ | ⟨last, e⟩ <;> rw [e]
    · exact ⟨fun _ => ⟨hn, rfl⟩, by simp, by simp⟩
    · simp only [txPut_encRd] at last
      exact ⟨by simp [hp], by simp [hw]; omega, by simp [hp]⟩
  case encReset =>
    cases h
    exact ⟨fun _ => ⟨hn, rfl⟩, by simp, by simp⟩

/-- A fault of causes 1 to 4 leaves RX seeking, with a cause the codes allow. -/
theorem raiseRx_rxInv {c : Cause} (hc : 1 ≤ c.toNat ∧ c.toNat ≤ 4) (s : State) : RxInv (raiseRx c s) :=
  ⟨fun _ => rfl, by simp, fun _ => hc⟩

theorem pendFrame_rxInv (s : State) : RxInv (pendFrame s) := ⟨fun _ => rfl, by simp, by simp⟩

/-- With nothing pending and no payload in progress RX's bounds hold. -/
theorem rxInv_of_idle (hp : s.oPend = .none) (hph : s.rxPhase ≠ .payload) : RxInv s :=
  ⟨absurd hp, fun h => absurd h hph, by simp [hp]⟩

theorem startPayload_rxInv (hp : s.oPend = .none) : RxInv (startPayload s) := by
  rcases startPayload_cases s with ⟨-, e⟩ | ⟨count, e⟩ <;> rw [e]
  · exact pendFrame_rxInv s
  · have pos : s.decCount.toNat ≠ 0 := by simpa [← BitVec.toNat_inj] using count
    exact ⟨absurd hp, fun _ => ⟨by simp; omega, by simp; omega⟩, by simp [hp]⟩

theorem payloadNext_rxInv (hp : s.oPend = .none) (hi : s.decIdx < 2 * s.decCount.toNat) : RxInv (payloadNext s) := by
  rcases payloadNext_cases s with ⟨-, e⟩ | ⟨more, e⟩ <;> rw [e]
  · exact pendFrame_rxInv s
  · exact ⟨absurd hp, fun _ => ⟨by simp; omega, by simp; omega⟩, by simp [hp]⟩

/-- An operation of RX keeps the bounds of its registers (R38). -/
theorem Effect.rxInv (h : Effect p i s t) (hi : i.ofRx) (hs : RxInv s) (on : enabled i s) : RxInv t := by
  have takes (hi : i.takesRxToken) : s.oPend = .none ∧ s.rxPhase ∈ rowPhases i :=
    rxTakesIn_iff.1 (rxTakesIn_rowPhases hi s ▸ on)
  cases i <;> simp only [Instr.ofRx, Bool.false_eq_true] at hi
  case seek1Byte b =>
    cases h
    exact rxInv_of_idle (takes rfl).1 (by simp only; split <;> simp)
  case seek2Byte b =>
    cases h
    exact rxInv_of_idle (takes rfl).1 (by simp only; split <;> simp)
  case cntLoByte b => cases h; exact rxInv_of_idle (takes rfl).1 (by simp)
  case cntHiByte b => cases h; exact startPayload_rxInv (takes rfl).1
  case payloadByte b =>
    obtain ⟨hp, hph⟩ := takes rfl
    have hidx := (hs.payload (List.mem_singleton.1 hph)).2
    rcases h with ⟨-, rfl⟩ | ⟨-, -, rfl⟩ <;> exact payloadNext_rxInv hp hidx
  case handoff =>
    obtain ⟨e, he, rfl⟩ := h
    have hph : s.rxPhase = .seek1 := hs.pendSeeks (of_decide_eq_true on)
    exact rxInv_of_idle rfl (by simp [hph])
  case rxReset => cases h; exact rxInv_of_idle rfl (by simp)
  case seekTimeout | seekEos | decTimeout | decEos => cases h; exact raiseRx_rxInv (by decide) s

theorem Effect.encBufInv (h : Effect p i s t) (hi : i.ofEnc) (hs : BufferInv p.n s.encBuf) :
    BufferInv p.n t.encBuf := by
  cases i <;> simp only [Instr.ofEnc, Bool.false_eq_true] at hi
  case observe v => obtain ⟨hw, rfl⟩ := h; exact hs.write hw v
  case acqFault x => cases h; exact hs
  case emit =>
    obtain ⟨-, rfl⟩ := h
    rcases emitNext_cases p (txPut (emittedByte p s.encBuf s.encRd) s) with ⟨-, e⟩ | ⟨-, e⟩ <;> rw [e] <;> exact hs
  case encReset => cases h; exact hs

@[simp] theorem startPayload_decBuf (s : State) : (startPayload s).decBuf = s.decBuf := by
  rcases startPayload_cases s with ⟨-, h⟩ | ⟨-, h⟩ <;> simp [h]

@[simp] theorem payloadNext_decBuf (s : State) : (payloadNext s).decBuf = s.decBuf := by
  rcases payloadNext_cases s with ⟨-, h⟩ | ⟨-, h⟩ <;> simp [h]

theorem Effect.decBufInv (h : Effect p i s t) (hi : i.ofRx) (hs : BufferInv Config.decCap s.decBuf) :
    BufferInv Config.decCap t.decBuf := by
  cases i <;> simp only [Instr.ofRx, Bool.false_eq_true] at hi
  case cntHiByte b => cases h; simpa using hs
  case payloadByte b =>
    rcases h with ⟨-, rfl⟩ | ⟨-, hc, rfl⟩
    · simpa using hs
    · simpa using hs.write hc _
  case handoff => obtain ⟨e, -, rfl⟩ := h; exact hs
  all_goals cases h; exact hs

/-- The event RX owes is a whole frame, or a fault with a code of R151. -/
theorem pendingEvent_whole {e : Event} (hs : RxInv s) (he : pendingEvent s = some e) : e.whole := by
  unfold pendingEvent at he
  split at he <;> cases he
  · exact ⟨by simp, fun v hv => by obtain ⟨w, -, rfl⟩ := List.mem_map.1 hv; exact toS16_range w⟩
  · exact hs.cause (by assumption)

theorem Effect.events_whole (h : Effect p i s t) (hs : RxInv s) (he : ∀ e ∈ s.oOut, e.whole) :
    ∀ e ∈ t.oOut, e.whole := by
  rw [h.oOut_eq]
  intro e hm
  rcases List.mem_append.1 hm with hm | hm
  · exact he e hm
  · unfold eventsDelivered at hm
    split at hm
    · exact pendingEvent_whole hs (Option.mem_toList.1 hm)
    · cases hm

/-- Every instruction keeps the invariant of the machine. -/
theorem Effect.inv (h : Effect p i s t) (on : enabled i s) (hs : Inv p s) : Inv p t := by
  have ofEnc (hi : i.ofEnc) : Inv p t :=
    have rx := h.rxSame_of_ofEnc hi
    ⟨h.encInv hi hs.enc on, hs.rx.of_rxSame rx, h.encBufInv hi hs.encBuf, rx.buf ▸ hs.decBuf,
      h.events_whole hs.rx hs.events⟩
  have ofRx (hi : i.ofRx) : Inv p t :=
    have enc := h.encSame_of_ofRx hi
    ⟨hs.enc.of_encSame enc, h.rxInv hi hs.rx on, enc.buf ▸ hs.encBuf, h.decBufInv hi hs.decBuf,
      h.events_whole hs.rx hs.events⟩
  cases i
  case wire samples =>
    obtain ⟨-, rfl⟩ := h
    exact .of_same (s := s) ⟨rfl, rfl, rfl, rfl⟩ ⟨rfl, rfl, rfl, rfl, rfl, rfl, rfl⟩ rfl hs
  case observe | acqFault | emit | encReset => exact ofEnc rfl
  case reservedRxKind3 => cases h
  all_goals exact ofRx rfl

theorem execFor_inv (h : execFor p i s = .next t) (hs : Inv p s) : Inv p t := by
  rcases execFor_next h with ⟨-, rfl⟩ | ⟨on, effect⟩
  · exact hs
  · exact effect.inv on hs

theorem advance_inv (rest : List Offer) (hs : Inv p s) : Inv p (advance rest s) :=
  .of_same (s := s) ⟨rfl, rfl, rfl, rfl⟩ ⟨rfl, rfl, rfl, rfl, rfl, rfl, rfl⟩ rfl hs

/-- What an offered item does when the machine goes on: the instruction it decodes to. -/
theorem takeOfferFor_next {o : Offer} (h : takeOfferFor p o s = .next t) :
    ∃ i, decodeFor p s.rxPhase o = .ok i ∧ execFor p i s = .next t := by
  unfold takeOfferFor at h
  split at h
  · exact ⟨_, by assumption, h⟩
  · cases h

theorem takeOfferFor_inv {o : Offer} (h : takeOfferFor p o s = .next t) (hs : Inv p s) : Inv p t := by
  obtain ⟨i, -, h⟩ := takeOfferFor_next h
  exact execFor_inv h hs

end Invariant

/-- Settles O56: a step takes an item or waits, and every instruction keeps the invariant. -/
theorem stepKeepsTheInvariantForAnyParameters : Obligations.StepKeepsTheInvariantForAnyParameters := by
  unfold Obligations.StepKeepsTheInvariantForAnyParameters
  intro p s t hs h
  unfold stepFor at h
  split at h
  · exact takeOfferFor_inv h (advance_inv _ hs)
  · cases h
    exact advance_inv _ hs

end Sys2Proof.Machine

namespace Sys2Proof.Machine

section Frames

variable {p : Config.Params} {s t : State} {f g : List Sample} {b : Byte}

/-! ## The bytes of a frame (R82, R96) -/

theorem payloadBytes_getElem?_even (samples : List Sample) (k : Nat) :
    (payloadBytes samples)[2 * k]? = samples[k]?.map lowByte := by
  induction samples generalizing k with
  | nil => rfl
  | cons v rest ih =>
    cases k with
    | zero => rfl
    | succ k => simpa [payloadBytes, Nat.mul_succ] using ih k

theorem payloadBytes_getElem?_odd (samples : List Sample) (k : Nat) :
    (payloadBytes samples)[2 * k + 1]? = samples[k]?.map highByte := by
  induction samples generalizing k with
  | nil => rfl
  | cons v rest ih =>
    cases k with
    | zero => rfl
    | succ k => simpa [payloadBytes, Nat.mul_succ] using ih k

theorem Memory.firstSlots_getElem? {m : Memory} {k j : Nat} (hj : j < k) : (m.firstSlots k)[j]? = some (m.read j) := by
  simp [Memory.firstSlots, hj]

/-- `B(i)` is byte `i` of the frame of the buffer's samples (R96). -/
theorem encodeFrame_getElem?_firstSlots {buf : Memory} {i : Nat} (hi : i < p.frameLen) :
    (encodeFrame p (buf.firstSlots p.n))[i]? = some (emittedByte p buf i) := by
  rcases i with _ | _ | _ | _ | i
  · rfl
  · rfl
  · simp [encodeFrame, emittedByte]
  · simp [encodeFrame, emittedByte]
  · have slot : i / 2 < p.n := by simp only [Config.Params.frameLen] at hi; omega
    rcases Nat.even_or_odd' i with ⟨k, rfl | rfl⟩
    · have hk : 2 * k / 2 = k := by omega
      rw [hk] at slot
      simp [encodeFrame, emittedByte, payloadBytes_getElem?_even, Memory.firstSlots_getElem? slot, hk]
    · have hk : (2 * k + 1) / 2 = k := by omega
      rw [hk] at slot
      simp [encodeFrame, emittedByte, payloadBytes_getElem?_odd, Memory.firstSlots_getElem? slot, hk]

theorem take_succ_encodeFrame {buf : Memory} {i : Nat} (hi : i < p.frameLen) :
    (encodeFrame p (buf.firstSlots p.n)).take (i + 1)
      = (encodeFrame p (buf.firstSlots p.n)).take i ++ [emittedByte p buf i] := by
  rw [List.take_add_one, encodeFrame_getElem?_firstSlots hi]
  rfl

theorem length_encodeFrame_n (hf : f.length = p.n) : (encodeFrame p f).length = p.frameLen := by
  rw [length_encodeFrame, hf]
  rfl

theorem encodeFrame_injective (h : encodeFrame p f = encodeFrame p g) : f = g := by
  have payload : payloadBytes f = payloadBytes g := congrArg (List.drop 4) h
  simpa using congrArg decodePatterns payload

/-- A count is determined by its two bytes (R72). -/
theorem eq_of_lowByte_of_highByte {v w : BitVec 16} (hl : lowByte v = lowByte w) (hh : highByte v = highByte w) :
    v = w := by
  rw [← word16_high_low v, ← word16_high_low w, hl, hh]

theorem toNat_ofNat_n (p : Config.Params) : (BitVec.ofNat 16 p.n).toNat = p.n := by
  have := p.n_le
  simp only [BitVec.toNat_ofNat]
  omega

/-! ## The frame in progress that RX holds (R41 b, R56) -/

theorem RxSame.rxPartial_eq (h : RxSame s t) : rxPartial p t = rxPartial p s := by
  simp only [rxPartial, h.phase, h.count, h.lo, h.idx, h.buf]

theorem RxSame.pendingEvent_eq (h : RxSame s t) : pendingEvent t = pendingEvent s := by
  simp only [pendingEvent, h.pend, h.count, h.buf, h.cause]

theorem RxSame.eventsOwed_eq (h : RxSame s t) (ho : t.oOut = s.oOut) : eventsOwed t = eventsOwed s := by
  rw [eventsOwed, eventsOwed, h.pendingEvent_eq, ho]

theorem rxPartial_seek1 (h : s.rxPhase = .seek1) : rxPartial p s = [] := by rw [rxPartial, h]

theorem rxPartial_payload (h : s.rxPhase = .payload) :
    rxPartial p s = p.magic0 :: p.magic1 :: lowByte s.decCount :: highByte s.decCount
      :: payloadBytes (s.decBuf.firstSlots (s.decIdx / 2)) ++ if s.decIdx % 2 = 0 then [] else [s.decLo] := by
  rw [rxPartial, h]

theorem length_rxPartial_payload (h : s.rxPhase = .payload) : (rxPartial p s).length = 4 + s.decIdx := by
  rw [rxPartial_payload h]
  split <;> simp <;> omega

/-- A frame in progress that starts like a frame of `N` samples has its count. -/
theorem decCount_of_rxPartial {tail : List Byte} (h : s.rxPhase = .payload) (hf : f.length = p.n)
    (start : rxPartial p s <+: encodeFrame p f ++ tail) : s.decCount = BitVec.ofNat 16 p.n := by
  rw [rxPartial_payload h, encodeFrame, hf] at start
  simp only [List.cons_append, List.cons_prefix_cons, true_and] at start
  obtain ⟨low, high, -⟩ := start
  exact eq_of_lowByte_of_highByte low high

/-- What RX holds of a frame of `N` samples is never the whole of it. -/
theorem length_rxPartial_lt {tail : List Byte} (hs : RxInv s) (hf : f.length = p.n)
    (start : rxPartial p s <+: encodeFrame p f ++ tail) : (rxPartial p s).length < p.frameLen := by
  have := p.n_pos
  cases h : s.rxPhase
  case payload =>
    have idx := (hs.payload h).2
    rw [decCount_of_rxPartial h hf start, toNat_ofNat_n] at idx
    rw [length_rxPartial_payload h, Config.Params.frameLen]
    omega
  all_goals
    simp only [rxPartial, h, Config.Params.frameLen, List.length_cons, List.length_nil]
    omega

/-- RX has taken one more byte of frame `f`: the frame is whole and owed to the consumer, or still in progress. -/
def ByteOfFrameTaken (p : Config.Params) (f : List Sample) (b : Byte) (s t : State) : Prop :=
  rxPartial p s ++ [b] = encodeFrame p f ∧ rxPartial p t = []
    ∧ pendingEvent t = some (.frame (BitVec.ofNat 16 p.n) (f.map toS16))
  ∨ rxPartial p t = rxPartial p s ++ [b] ∧ t.oPend = .none

/-- The buffer once the payload byte of an odd index has completed a sample (R133). -/
def withPayloadSample (b : Byte) (s : State) : Memory := s.decBuf.write (s.decIdx / 2) (word16 b s.decLo)

/-- With a byte of odd index what RX has taken is a header and whole samples. -/
theorem rxPartial_append_of_odd (ph : s.rxPhase = .payload) (wf : s.decBuf.wf) (odd : s.decIdx % 2 = 1) (b : Byte) :
    rxPartial p s ++ [b] = p.magic0 :: p.magic1 :: lowByte s.decCount :: highByte s.decCount
      :: payloadBytes ((withPayloadSample b s).firstSlots (s.decIdx / 2 + 1)) := by
  rw [rxPartial_payload ph, withPayloadSample, Memory.firstSlots_succ, Memory.firstSlots_write wf le_rfl,
    Memory.read_write_same wf]
  simp [odd, payloadBytes]

/-- A payload byte of even index waits, and does not end the frame (R133). -/
theorem evenByte_taken (hp : s.oPend = .none) (ph : s.rxPhase = .payload) (even : s.decIdx % 2 = 0) :
    ByteOfFrameTaken p f b s (payloadNext { s with decLo := b }) := by
  rcases payloadNext_cases { s with decLo := b } with ⟨last, -⟩ | ⟨-, e⟩
  · simp only at last
    omega
  · have odd : (s.decIdx + 1) % 2 ≠ 0 := by omega
    have half : (s.decIdx + 1) / 2 = s.decIdx / 2 := by omega
    rw [e]
    exact .inr ⟨by simp [rxPartial, ph, even, odd, half], hp⟩

/-- A payload byte of odd index completes a sample, and the last one the frame (R133). -/
theorem oddByte_taken (wf : s.decBuf.wf) (hp : s.oPend = .none) (ph : s.rxPhase = .payload) (hf : f.length = p.n)
    (next : rxPartial p s ++ [b] <+: encodeFrame p f) (odd : s.decIdx % 2 = 1) :
    ByteOfFrameTaken p f b s (payloadNext { s with decBuf := withPayloadSample b s }) := by
  have count : s.decCount = BitVec.ofNat 16 p.n :=
    decCount_of_rxPartial ph hf (tail := []) (by simpa using (List.prefix_append _ [b]).trans next)
  have grown := rxPartial_append_of_odd (p := p) ph wf odd b
  rcases payloadNext_cases { s with decBuf := withPayloadSample b s } with ⟨last, e⟩ | ⟨-, e⟩ <;> rw [e]
  · have slots : s.decIdx / 2 + 1 = p.n := by
      simp only [count, toNat_ofNat_n] at last
      omega
    have encoded : rxPartial p s ++ [b] = encodeFrame p ((withPayloadSample b s).firstSlots p.n) := by
      rw [grown, slots, count, encodeFrame, Memory.length_firstSlots]
    have whole : rxPartial p s ++ [b] = encodeFrame p f := next.eq_of_length (by rw [encoded]; simp [hf])
    have samples := encodeFrame_injective (whole.symm.trans encoded)
    refine .inl ⟨whole, rfl, ?_⟩
    simp [pendingEvent, samples, count, Nat.mod_eq_of_lt (Nat.lt_succ_of_le p.n_le)]
  · have even : (s.decIdx + 1) % 2 = 0 := by omega
    have half : (s.decIdx + 1) / 2 = s.decIdx / 2 + 1 := by omega
    rw [ByteOfFrameTaken, grown]
    exact .inr ⟨by simp [rxPartial, ph, even, half], hp⟩

/-- RX takes the next byte of a frame of `N` samples, in whatever phase the bytes before it have led to (R59, R136). -/
theorem byte_of_frame_taken (wf : s.decBuf.wf) (hp : s.oPend = .none) (hf : f.length = p.n)
    (next : rxPartial p s ++ [b] <+: encodeFrame p f) (h : execFor p (decodeByte s.rxPhase b) s = .next t) :
    ByteOfFrameTaken p f b s t := by
  rcases execFor_next h with ⟨off, -⟩ | ⟨-, effect⟩
  · exact absurd (by cases ph : s.rxPhase <;> simp [enabled, decodeByte, Instr.selectedIn, hp, ph]) off
  cases ph : s.rxPhase <;> rw [ph] at effect <;> simp only [decodeByte] at effect
  case payload =>
    rcases effect with ⟨even, rfl⟩ | ⟨odd, -, rfl⟩
    · exact evenByte_taken hp ph even
    · exact oddByte_taken wf hp ph hf next odd
  all_goals
    simp only [rxPartial, ph, encodeFrame, hf, List.nil_append, List.cons_append, List.cons_prefix_cons,
      true_and] at next
  case seek1 =>
    obtain ⟨rfl, -⟩ := next
    cases effect
    exact .inr ⟨by simp [rxPartial, ph], hp⟩
  case seek2 =>
    obtain ⟨rfl, -⟩ := next
    cases effect
    exact .inr ⟨by simp [rxPartial, ph], hp⟩
  case cntLo =>
    cases effect
    exact .inr ⟨by simp [rxPartial, ph], hp⟩
  case cntHi =>
    obtain ⟨low, high, -⟩ := next
    have count : word16 b (lowByte s.decCount) = BitVec.ofNat 16 p.n :=
      eq_of_lowByte_of_highByte (by simpa using low) (by simpa using high)
    have pos : word16 b (lowByte s.decCount) ≠ 0 := fun zero => by
      have empty : 0 = p.n := by simpa [zero] using congrArg BitVec.toNat count |>.trans (toNat_ofNat_n p)
      have := p.n_pos
      omega
    cases effect
    rcases startPayload_cases { s with decCount := word16 b (lowByte s.decCount) } with ⟨zero, -⟩ | ⟨-, e⟩
    · exact absurd zero pos
    · rw [e]
      exact .inr ⟨by simp [rxPartial, ph, payloadBytes], hp⟩

end Frames

end Sys2Proof.Machine

namespace Sys2Proof.Machine

section Joined

variable {p : Config.Params} {i : Instr} {s t : State} {c d : Linked} {w : RxToken}

/-! ## What an item leaves alone -/

theorem execFor_txOut (h : execFor p i s = .next t) (hi : bytesPut p i s = []) : t.txOut = s.txOut := by
  rcases execFor_next h with ⟨-, rfl⟩ | ⟨-, effect⟩
  · rfl
  · rw [effect.txOut_eq, hi, List.append_nil]

theorem execFor_oOut (h : execFor p i s = .next t) (hi : eventsDelivered i s = []) : t.oOut = s.oOut := by
  rcases execFor_next h with ⟨-, rfl⟩ | ⟨-, effect⟩
  · rfl
  · rw [effect.oOut_eq, hi, List.append_nil]

theorem execFor_rxSame (h : execFor p i s = .next t) (hi : i.ofEnc) : RxSame s t := by
  rcases execFor_next h with ⟨-, rfl⟩ | ⟨-, effect⟩
  · exact .refl _
  · exact effect.rxSame_of_ofEnc hi

theorem execFor_encSame (h : execFor p i s = .next t) (hi : i.ofRx) : EncSame s t := by
  rcases execFor_next h with ⟨-, rfl⟩ | ⟨-, effect⟩
  · exact .refl _
  · exact effect.encSame_of_ofRx hi

theorem ofRx_of_takesRxToken (hi : i.takesRxToken) : i.ofRx := by cases i <;> cases hi <;> rfl

theorem eventsDelivered_of_takesRxToken (hi : i.takesRxToken) : eventsDelivered i s = [] := by
  cases i <;> cases hi <;> rfl

/-- Every token but those of the reserved kind selects an operation of RX that takes it (R76, R78). -/
theorem decodeRx_takesRxToken (hw : rxKind w ≠ 3) (ph : RxPhase) : (decodeRx ph w).takesRxToken := by
  have kinds : ∀ k : BitVec 2, k ≠ 0 → k ≠ 1 → k ≠ 2 → k = 3 := by decide
  unfold decodeRx
  split
  · cases ph <;> rfl
  · split
    · split <;> rfl
    · split
      · split <;> rfl
      · exact absurd (kinds _ (by assumption) (by assumption) (by assumption)) hw

/-- A token leaves ENC and both traces alone. -/
theorem takeOfferFor_rxtok_same (h : takeOfferFor p (.rxtok w) s = .next t) (hw : rxKind w ≠ 3) :
    EncSame s t ∧ t.txOut = s.txOut ∧ t.oOut = s.oOut := by
  obtain ⟨i, hd, h⟩ := takeOfferFor_next h
  cases hd
  have takes := decodeRx_takesRxToken hw s.rxPhase
  have ofRx := ofRx_of_takesRxToken takes
  exact ⟨execFor_encSame h ofRx, execFor_txOut h (bytesPut_of_ofRx ofRx),
    execFor_oOut h (eventsDelivered_of_takesRxToken takes)⟩

/-- A TIMEOUT or an EOS taken in SEEK1 (R113, R114). -/
theorem interrupt_in_seek1 (hw : rxKind w = 1 ∨ rxKind w = 2) (hp : s.oPend = .none) (ph : s.rxPhase = .seek1)
    (h : takeOfferFor p (.rxtok w) s = .next t) : t = raiseRx 1 s ∨ t = raiseRx 2 s := by
  rw [takeOfferFor_interrupt p hw, ph, if_pos (show RxPhase.seek1.seeking by rfl)] at h
  rcases seekFault_next h with ⟨off, -⟩ | ⟨-, rfl⟩
  · exact absurd (rxTakesIn_iff.2 ⟨hp, by simp [ph]⟩) off
  · split <;> simp

/-! ## The parts of the invariant of the joined blocks, one step -/

theorem Linked.Step.machine_inv (h : Linked.Step p c d) (hc : Machine.Inv p c.machine) : Machine.Inv p d.machine := by
  cases h with
  | observe _ took | acqFault _ took | emit _ took _ | handoff _ took | encReset took | rxReset took =>
    exact execFor_inv took hc
  | deliver _ _ took | timeout _ _ took | eos _ _ _ took => exact takeOfferFor_inv took hc

/-- The Transport neither loses nor reorders a byte (R12). -/
theorem Linked.Step.bytes (h : Linked.Step p c d) (hc : c.machine.txOut = c.taken ++ c.inFlight) :
    d.machine.txOut = d.taken ++ d.inFlight := by
  cases h with
  | observe _ took | acqFault _ took | handoff _ took | encReset took | rxReset took =>
    exact (execFor_txOut took rfl).trans hc
  | emit _ _ put =>
    show _ = c.taken ++ (c.inFlight ++ _)
    rw [put, hc, List.append_assoc]
  | deliver first _ took =>
    rw [(takeOfferFor_rxtok_same took (by simp)).2.1, hc, first]
    simp [Linked.taken]
  | timeout kind _ took | eos kind _ _ took =>
    rw [(takeOfferFor_rxtok_same took (by simp [kind])).2.1, hc]
    simp [Linked.taken, kind]

theorem Linked.Step.eos_le_one (h : Linked.Step p c d) (hc : c.eosTaken.length ≤ 1) : d.eosTaken.length ≤ 1 := by
  cases h with
  | observe | acqFault | emit | handoff | encReset | rxReset => exact hc
  | deliver => simpa [Linked.eosTaken] using hc
  | timeout kind => simpa [Linked.eosTaken, kind] using hc
  | eos kind first =>
    have none := List.filter_eq_nil_iff.1 first
    simp_all [Linked.eosTaken]

/-! ## The tie, one step

ENC's side of the tie and RX's side share only the list of frames; a step of one block keeps the other's side. -/

/-- ENC's side of the tie: the frames wholly put, and the one in its buffer. -/
structure FramesPut (p : Config.Params) (frames : List (List Sample)) (accepted : List Sample) (s : State) : Prop where
  lengths : ∀ f ∈ frames, f.length = p.n
  put : s.txOut = frames.flatMap (encodeFrame p) ++ (encodeFrame p (s.encBuf.firstSlots p.n)).take s.encRd
  accepted : accepted = frames.flatten ++ s.encBuf.firstSlots s.encWr

/-- An event that R60 allows. -/
def Event.ofTransit (p : Config.Params) (e : Event) : Prop :=
  (∃ samples, e = .frame (BitVec.ofNat 16 p.n) samples ∧ samples.length = p.n) ∨ e = .fault 1 ∨ e = .fault 2

/-- RX's side of the tie: the frames received whole, and the one in progress. -/
structure FramesTaken (p : Config.Params) (received : List (List Sample)) (taken : List Byte) (s : State) : Prop where
  taken : taken = received.flatMap (encodeFrame p) ++ rxPartial p s
  delivered : (eventsOwed s).flatMap Event.samples = received.flatten.map toS16
  events : ∀ e ∈ eventsOwed s, e.ofTransit p

theorem Linked.tied_iff : c.Tied p ↔ ∃ received inTransit,
    FramesPut p (received ++ inTransit) c.accepted c.machine ∧ FramesTaken p received c.taken c.machine := by
  constructor
  · rintro ⟨received, inTransit, lengths, put, accepted, taken, delivered, events⟩
    exact ⟨received, inTransit, ⟨lengths, put, accepted⟩, ⟨taken, delivered, events⟩⟩
  · rintro ⟨received, inTransit, ⟨lengths, put, accepted⟩, ⟨taken, delivered, events⟩⟩
    exact ⟨received, inTransit, lengths, put, accepted, taken, delivered, events⟩

variable {frames received inTransit : List (List Sample)} {accepted f : List Sample} {taken rest : List Byte} {b : Byte}

theorem FramesPut.of_same (h : FramesPut p frames accepted s) (he : EncSame s t) (ht : t.txOut = s.txOut) :
    FramesPut p frames accepted t :=
  ⟨h.lengths, by rw [ht, he.buf, he.rd]; exact h.put, by rw [he.buf, he.wr]; exact h.accepted⟩

theorem FramesTaken.of_same (h : FramesTaken p received taken s) (hr : RxSame s t) (ho : t.oOut = s.oOut) :
    FramesTaken p received taken t :=
  ⟨by rw [hr.rxPartial_eq]; exact h.taken, by rw [hr.eventsOwed_eq ho]; exact h.delivered,
    by rw [hr.eventsOwed_eq ho]; exact h.events⟩

/-- A sample accepted stands in the buffer after those before it (R92). -/
theorem FramesPut.observe {v : Sample} (h : FramesPut p frames accepted s) (hs : Machine.Inv p s)
    (on : enabled (.observe v) s) (took : execFor p (.observe v) s = .next t) :
    FramesPut p frames (accepted ++ [v]) t := by
  rcases execFor_next took with ⟨off, -⟩ | ⟨-, -, rfl⟩
  · exact absurd on off
  have wf := hs.encBuf.1
  have rd : s.encRd = 0 := (hs.enc.accum (of_decide_eq_true on)).2
  refine ⟨h.lengths, ?_, ?_⟩
  · simpa [rd] using h.put
  · simp [h.accepted, Memory.firstSlots_succ, Memory.firstSlots_write wf le_rfl, Memory.read_write_same wf]

/-- A byte put is the next of the frame in ENC's buffer; with the last one that frame is wholly put (R93). -/
theorem FramesPut.emit (h : FramesPut p frames accepted s) (hs : Machine.Inv p s) (on : enabled .emit s)
    (took : execFor p .emit s = .next t) : ∃ more, FramesPut p (frames ++ more) accepted t := by
  rcases execFor_next took with ⟨off, -⟩ | ⟨-, effect⟩
  · exact absurd on off
  have wr : s.encWr = p.n := (hs.enc.emit (of_decide_eq_true on)).1
  have put := effect.txOut_eq
  obtain ⟨inFrame, rfl⟩ := effect
  rw [h.put, bytesPut, List.append_assoc, ← take_succ_encodeFrame inFrame] at put
  rcases emitNext_cases p (txPut (emittedByte p s.encBuf s.encRd) s) with ⟨last, e⟩ | ⟨-, e⟩ <;> rw [e] at put ⊢
  · have whole : (encodeFrame p (s.encBuf.firstSlots p.n)).length ≤ s.encRd + 1 := by
      rw [length_encodeFrame_n (by simp)]
      exact last.ge
    rw [List.take_of_length_le whole] at put
    refine ⟨[s.encBuf.firstSlots p.n], ?_, ?_, ?_⟩
    · simpa [or_imp, forall_and] using h.lengths
    · simpa using put
    · simp [h.accepted, wr]
  · exact ⟨[], by simpa using h.lengths, by simpa using put, by simpa using h.accepted⟩

/-- A TIMEOUT or an EOS taken in SEEK1 adds its fault to the events and nothing else (R113, R114). -/
theorem FramesTaken.raise {cause : Cause} (h : FramesTaken p received taken s) (hp : s.oPend = .none)
    (ph : s.rxPhase = .seek1) (hc : cause = 1 ∨ cause = 2) : FramesTaken p received taken (raiseRx cause s) := by
  have owed : eventsOwed (raiseRx cause s) = eventsOwed s ++ [.fault cause] := by
    rw [eventsOwed_of_none hp]
    rfl
  refine ⟨?_, ?_, ?_⟩
  · rw [rxPartial_seek1 rfl, h.taken, rxPartial_seek1 ph]
  · rw [owed, List.flatMap_append, h.delivered]
    exact List.append_nil _
  · rw [owed]
    intro e he
    rcases List.mem_append.1 he with he | he
    · exact h.events e he
    · rw [List.mem_singleton.1 he]
      exact .inr (by simpa using hc)

/-- Handing over moves the event owed into the trace (R137). -/
theorem FramesTaken.handoff (h : FramesTaken p received taken s) (took : execFor p .handoff s = .next t) :
    FramesTaken p received taken t := by
  rcases execFor_next took with ⟨-, rfl⟩ | ⟨-, e, owes, rfl⟩
  · exact h
  have owed : eventsOwed { emitEvent e s with oPend := .none } = eventsOwed s := by
    rw [eventsOwed_of_none rfl, eventsOwed, owes]
    rfl
  exact ⟨h.taken, owed ▸ h.delivered, owed ▸ h.events⟩

/-- RX takes the next byte of frame `f`, and with its last byte has received it (R59). -/
theorem FramesTaken.byte (h : FramesTaken p received taken s) (hs : Machine.Inv p s) (hp : s.oPend = .none)
    (hf : f.length = p.n) (next : rxPartial p s ++ [b] <+: encodeFrame p f)
    (took : takeOfferFor p (.rxtok (byteToken b)) s = .next t) :
    FramesTaken p received (taken ++ [b]) t
    ∨ rxPartial p s ++ [b] = encodeFrame p f ∧ FramesTaken p (received ++ [f]) (taken ++ [b]) t := by
  obtain ⟨-, -, trace⟩ := takeOfferFor_rxtok_same took (by simp)
  rw [takeOfferFor_byte] at took
  have before := eventsOwed_of_none hp
  rcases byte_of_frame_taken hs.decBuf.1 hp hf next took with ⟨whole, empty, pends⟩ | ⟨grown, idle⟩
  · have owed : eventsOwed t = eventsOwed s ++ [.frame (BitVec.ofNat 16 p.n) (f.map toS16)] := by
      rw [before, eventsOwed, trace, pends]
      rfl
    refine .inr ⟨whole, ?_, ?_, ?_⟩
    · rw [h.taken, List.append_assoc, whole, empty]
      simp
    · simp [owed, h.delivered, Event.samples]
    · rw [owed]
      intro e he
      rcases List.mem_append.1 he with he | he
      · exact h.events e he
      · exact .inl ⟨_, List.mem_singleton.1 he, by simp [hf]⟩
  · have owed : eventsOwed t = eventsOwed s := by rw [before, eventsOwed_of_none idle, trace]
    exact .inl ⟨by rw [grown, h.taken, List.append_assoc], owed ▸ h.delivered, owed ▸ h.events⟩

/-- The next byte in flight belongs to the first frame in transit, or with none to the part of ENC's frame that is put,
which does not end it. -/
theorem next_byte_of_frame (hput : FramesPut p (received ++ inTransit) accepted s)
    (htaken : FramesTaken p received taken s) (hs : Machine.Inv p s) (bytes : s.txOut = taken ++ b :: rest) :
    (∃ f fs, inTransit = f :: fs ∧ rxPartial p s ++ [b] <+: encodeFrame p f)
    ∨ rxPartial p s ++ [b] <+: encodeFrame p (s.encBuf.firstSlots p.n)
      ∧ (rxPartial p s ++ [b]).length < p.frameLen := by
  have ahead : inTransit.flatMap (encodeFrame p) ++ (encodeFrame p (s.encBuf.firstSlots p.n)).take s.encRd
      = rxPartial p s ++ [b] ++ rest := by
    have := hput.put.symm.trans bytes
    rw [htaken.taken] at this
    simpa using this
  have begins : rxPartial p s ++ [b] <+: _ := ahead ▸ List.prefix_append _ rest
  cases inTransit with
  | nil =>
    have short : s.encRd < p.frameLen := by
      have := four_le_frameLen p
      cases ph : s.encPhase
      case accum => have := (hs.enc.accum ph).2; omega
      case emit => exact (hs.enc.emit ph).2
      case halt => have := (hs.enc.halt ph).2; omega
    have within := begins.length_le
    simp only [List.flatMap_nil, List.nil_append] at begins within
    exact .inr ⟨begins.trans (List.take_prefix _ _),
      (within.trans (List.length_take_le _ _)).trans_lt short⟩
  | cons f fs =>
    have hf : f.length = p.n := hput.lengths f (by simp)
    rw [List.flatMap_cons, List.append_assoc] at begins
    have short := length_rxPartial_lt hs.rx hf ((List.prefix_append _ [b]).trans begins)
    refine .inl ⟨f, fs, rfl, List.prefix_of_prefix_length_le begins (List.prefix_append _ _) ?_⟩
    rw [length_encodeFrame_n hf]
    simpa using short

/-- RX takes the next byte in flight: it stays in the frames there are, or completes the first in transit. -/
theorem Linked.Tied.deliver (h : c.Tied p) (hc : Linked.Inv p c) (first : c.inFlight = b :: rest)
    (hp : c.machine.oPend = .none) (took : takeOfferFor p (.rxtok (byteToken b)) c.machine = .next t) :
    Linked.Tied p { c with machine := t, inFlight := rest, tokens := c.tokens ++ [byteToken b] } := by
  obtain ⟨received, inTransit, hput, htaken⟩ := Linked.tied_iff.1 h
  obtain ⟨enc, tx, -⟩ := takeOfferFor_rxtok_same took (by simp)
  have hput' := hput.of_same enc tx
  have taken : Linked.taken { c with machine := t, inFlight := rest, tokens := c.tokens ++ [byteToken b] }
      = c.taken ++ [b] := by simp [Linked.taken]
  rw [Linked.tied_iff, taken]
  rcases next_byte_of_frame hput htaken hc.machine (first ▸ hc.bytes) with ⟨f, fs, rfl, next⟩ | ⟨next, short⟩
  · rcases htaken.byte hc.machine hp (hput.lengths f (by simp)) next took with htaken' | ⟨-, htaken'⟩
    · exact ⟨received, f :: fs, hput', htaken'⟩
    · exact ⟨received ++ [f], fs, by simpa using hput', htaken'⟩
  · rcases htaken.byte hc.machine hp (by simp) next took with htaken' | ⟨whole, -⟩
    · exact ⟨received, inTransit, hput', htaken'⟩
    · rw [whole, length_encodeFrame_n (by simp)] at short
      exact absurd short (lt_irrefl _)

/-- A TIMEOUT or an EOS taken in SEEK1 keeps the tie. -/
theorem Linked.Tied.interrupt {undisturbed : Bool} (h : c.Tied p) (kind : rxKind w = 1 ∨ rxKind w = 2)
    (hp : c.machine.oPend = .none) (ph : c.machine.rxPhase = .seek1)
    (took : takeOfferFor p (.rxtok w) c.machine = .next t) :
    Linked.Tied p { c with machine := t, tokens := c.tokens ++ [w], undisturbed := undisturbed } := by
  obtain ⟨received, inTransit, hput, htaken⟩ := Linked.tied_iff.1 h
  obtain ⟨enc, tx, -⟩ := takeOfferFor_rxtok_same took (by rcases kind with kind | kind <;> simp [kind])
  have taken : Linked.taken { c with machine := t, tokens := c.tokens ++ [w], undisturbed := undisturbed }
      = c.taken := by
    rcases kind with kind | kind <;> simp [Linked.taken, kind]
  rw [Linked.tied_iff, taken]
  refine ⟨received, inTransit, hput.of_same enc tx, ?_⟩
  rcases interrupt_in_seek1 kind hp ph took with rfl | rfl
  · exact htaken.raise hp ph (.inl rfl)
  · exact htaken.raise hp ph (.inr rfl)

theorem Linked.Step.tied (h : Linked.Step p c d) (hc : Linked.Inv p c) (hd : d.undisturbed) : d.Tied p := by
  cases h with
  | observe on took =>
    obtain ⟨received, inTransit, hput, htaken⟩ := Linked.tied_iff.1 (hc.tied hd)
    exact Linked.tied_iff.2 ⟨received, inTransit, hput.observe hc.machine on took,
      htaken.of_same (execFor_rxSame took rfl) (execFor_oOut took rfl)⟩
  | emit on took _ =>
    obtain ⟨received, inTransit, hput, htaken⟩ := Linked.tied_iff.1 (hc.tied hd)
    obtain ⟨more, hput⟩ := hput.emit hc.machine on took
    exact Linked.tied_iff.2 ⟨received, inTransit ++ more, List.append_assoc .. ▸ hput,
      htaken.of_same (execFor_rxSame took rfl) (execFor_oOut took rfl)⟩
  | handoff _ took =>
    obtain ⟨received, inTransit, hput, htaken⟩ := Linked.tied_iff.1 (hc.tied hd)
    exact Linked.tied_iff.2 ⟨received, inTransit, hput.of_same (execFor_encSame took rfl) (execFor_txOut took rfl),
      htaken.handoff took⟩
  | deliver first open_ took => exact (hc.tied hd).deliver hc first open_ took
  | timeout kind open_ took =>
    have ⟨before, ph⟩ : c.undisturbed ∧ c.machine.rxPhase = .seek1 := by simpa using hd
    exact (hc.tied before).interrupt (.inl kind) open_ ph took
  | eos kind _ open_ took =>
    have ⟨before, ph⟩ : c.undisturbed ∧ c.machine.rxPhase = .seek1 := by simpa using hd
    exact (hc.tied before).interrupt (.inr kind) open_ ph took
  | acqFault | encReset | rxReset => cases hd

end Joined

/-- Settles O53: each part of the invariant is kept by a lemma of its own, the tie by a step of one block with the other
block's side of it unchanged. -/
theorem linkedStepKeepsTheInvariant : Obligations.LinkedStepKeepsTheInvariant := by
  unfold Obligations.LinkedStepKeepsTheInvariant
  intro p c d hc h
  exact ⟨h.machine_inv hc.machine, h.bytes hc.bytes, h.eos_le_one hc.eos, h.tied hc⟩

end Sys2Proof.Machine

namespace Sys2Proof.Machine

section Independence

variable {p : Config.Params} {i : Instr} {s s' t : State} {c : Cause}

/-! ## Each block is a function of its own registers (R3, R20) -/

theorem enabled_of_encSame (hi : i.ofEnc) (same : EncSame s s') : enabled i s' = enabled i s := by
  cases i <;> cases hi <;> simp [enabled, same.phase]

theorem enabled_of_rxSame (hi : i.ofRx) (same : RxSame s s') : enabled i s' = enabled i s := by
  cases i <;> cases hi <;> simp [enabled, same.phase, same.pend]

theorem bytesPut_of_encSame (same : EncSame s s') : bytesPut p i s' = bytesPut p i s := by
  cases i <;> simp [bytesPut, same.buf, same.rd]

theorem eventsDelivered_of_rxSame (same : RxSame s s') : eventsDelivered i s' = eventsDelivered i s := by
  cases i <;> simp [eventsDelivered, same.pendingEvent_eq]

theorem EncSame.emitNext (same : EncSame s s') : EncSame (emitNext p s) (emitNext p s') := by
  unfold Machine.emitNext
  rw [same.rd]
  split
  · exact { same with wr := rfl, rd := rfl, phase := rfl }
  · exact { same with rd := rfl }

theorem RxSame.raiseRx (same : RxSame s s') : RxSame (raiseRx c s) (raiseRx c s') :=
  { same with phase := rfl, pend := rfl, cause := rfl }

theorem RxSame.pendFrame (same : RxSame s s') : RxSame (pendFrame s) (pendFrame s') :=
  { same with phase := rfl, pend := rfl }

theorem RxSame.startPayload (same : RxSame s s') : RxSame (startPayload s) (startPayload s') := by
  unfold Machine.startPayload
  rw [same.count]
  split
  · exact same.pendFrame
  · exact { same with count := rfl, idx := rfl, phase := rfl }

theorem RxSame.payloadNext (same : RxSame s s') : RxSame (payloadNext s) (payloadNext s') := by
  unfold Machine.payloadNext
  rw [same.count, same.idx]
  split
  · exact same.pendFrame
  · exact { same with count := rfl, idx := rfl }

/-- What an operation of ENC does to ENC it does in every state with the same ENC registers. -/
theorem Effect.of_encSame (h : Effect p i s t) (hi : i.ofEnc) (same : EncSame s s') :
    ∃ t', Effect p i s' t' ∧ EncSame t t' := by
  cases i <;> simp only [Instr.ofEnc, Bool.false_eq_true] at hi
  case observe v =>
    obtain ⟨hw, rfl⟩ := h
    refine ⟨_, ⟨same.wr ▸ hw, rfl⟩, ?_⟩
    simp only [same.wr, same.buf]
    exact ⟨rfl, rfl, same.rd, rfl⟩
  case acqFault x => cases h; exact ⟨_, rfl, { same with phase := rfl }⟩
  case emit =>
    obtain ⟨hr, rfl⟩ := h
    exact ⟨_, ⟨same.rd ▸ hr, rfl⟩, EncSame.emitNext { same with }⟩
  case encReset => cases h; exact ⟨_, rfl, { same with wr := rfl, rd := rfl, phase := rfl }⟩

/-- What an operation of RX does to RX it does in every state with the same RX registers. -/
theorem Effect.of_rxSame (h : Effect p i s t) (hi : i.ofRx) (same : RxSame s s') :
    ∃ t', Effect p i s' t' ∧ RxSame t t' := by
  cases i <;> simp only [Instr.ofRx, Bool.false_eq_true] at hi
  case seek1Byte b => cases h; exact ⟨_, rfl, { same with phase := rfl }⟩
  case seek2Byte b => cases h; exact ⟨_, rfl, { same with phase := rfl }⟩
  case cntLoByte b => cases h; exact ⟨_, rfl, { same with phase := rfl, count := by simp [same.count] }⟩
  case cntHiByte b => cases h; exact ⟨_, rfl, .startPayload { same with count := by simp [same.count] }⟩
  case payloadByte b =>
    rcases h with ⟨even, rfl⟩ | ⟨odd, hc, rfl⟩
    · exact ⟨_, .inl ⟨same.idx ▸ even, rfl⟩, .payloadNext { same with lo := rfl }⟩
    · exact ⟨_, .inr ⟨same.idx ▸ odd, same.idx ▸ hc, rfl⟩,
        .payloadNext { same with buf := by simp [same.buf, same.idx, same.lo] }⟩
  case handoff =>
    obtain ⟨e, he, rfl⟩ := h
    exact ⟨_, ⟨e, same.pendingEvent_eq.trans he, rfl⟩, { same with pend := rfl }⟩
  case rxReset => cases h; exact ⟨_, rfl, { same with phase := rfl, pend := rfl }⟩
  case seekTimeout | seekEos | decTimeout | decEos => cases h; exact ⟨_, rfl, same.raiseRx⟩

end Independence

/-- Settles O39: an instruction that is not enabled does nothing in either state; the effect of one that is carries
over, with the same addition to its block's trace. -/
theorem blocksDoNotInfluenceEachOther : Obligations.BlocksDoNotInfluenceEachOther := by
  unfold Obligations.BlocksDoNotInfluenceEachOther
  intro i s s' t h
  simp only [exec_eq_execFor] at h ⊢
  refine ⟨fun hi same => ?_, fun hi same => ?_⟩
  · have on' := enabled_of_encSame hi same
    rcases execFor_next h with ⟨off, rfl⟩ | ⟨on, effect⟩
    · exact ⟨s', [], execFor_of_not_enabled (on' ▸ off), same, .refl s', by simp, by simp, rfl⟩
    · obtain ⟨t', effect', same'⟩ := effect.of_encSame hi same
      refine ⟨t', bytesPut Config.params i s, execFor_of_effect (on' ▸ on) effect', same', effect'.rxSame_of_ofEnc hi,
        effect.txOut_eq, ?_, ?_⟩
      · rw [effect'.txOut_eq, bytesPut_of_encSame same]
      · rw [effect'.oOut_eq, eventsDelivered_of_ofEnc hi, List.append_nil]
  · have on' := enabled_of_rxSame hi same
    rcases execFor_next h with ⟨off, rfl⟩ | ⟨on, effect⟩
    · exact ⟨s', [], execFor_of_not_enabled (on' ▸ off), same, .refl s', by simp, by simp, rfl⟩
    · obtain ⟨t', effect', same'⟩ := effect.of_rxSame hi same
      refine ⟨t', eventsDelivered i s, execFor_of_effect (on' ▸ on) effect', same', effect'.encSame_of_ofRx hi,
        effect.oOut_eq, ?_, ?_⟩
      · rw [effect'.oOut_eq, eventsDelivered_of_rxSame same]
      · rw [effect'.txOut_eq, bytesPut_of_ofRx hi, List.append_nil]

end Sys2Proof.Machine

namespace Sys2Proof.Machine

section Cycle

variable {p : Config.Params} {s t u : State} {rest : List Offer}

/-! ## Runs over any parameters -/

theorem runFor_zero (p : Config.Params) (s : State) : runFor p 0 s = .next s := rfl

theorem runFor_succ_of_next {k : Nat} (h : stepFor p s = .next t) : runFor p (k + 1) s = runFor p k t := by
  have h' : (coreFor p).step s = .next t := h
  simp only [runFor, Host.Core.run, h']
  rfl

/-- A run of at least one step that goes on takes its first step. -/
theorem runFor_succ_next {k : Nat} (h : runFor p (k + 1) s = .next t) :
    ∃ u, stepFor p s = .next u ∧ runFor p k u = .next t := by
  cases hs : (coreFor p).step s with
  | next u => exact ⟨u, hs, by simpa only [runFor, Host.Core.run, hs] using h⟩
  | fault r => simp [runFor, Host.Core.run, hs] at h
  | refused r => simp [runFor, Host.Core.run, hs] at h

theorem runFor_add {j k : Nat} (h : runFor p j s = .next t) : runFor p (j + k) s = runFor p k t := by
  induction j generalizing s with
  | zero =>
    cases h
    rw [Nat.zero_add]
  | succ j ih =>
    obtain ⟨u, first, later⟩ := runFor_succ_next h
    rw [Nat.add_right_comm, runFor_succ_of_next first, ih later]

theorem stepFor_of_head_ready {o : Offer} (hs : s.script = o :: rest) (h : offerReady s o) :
    stepFor p s = takeOfferFor p o (advance rest s) := by
  rw [stepFor, fetch_of_head_ready hs h]

/-! ## A frame cycle of the encoder (R90) -/

/-- The receiver and its events are as they were. -/
structure RxIdle (s t : State) : Prop where
  same : RxSame s t
  events : t.oOut = s.oOut

theorem RxIdle.refl (s : State) : RxIdle s s := ⟨.refl s, rfl⟩

theorem RxIdle.trans (h : RxIdle s t) (k : RxIdle t u) : RxIdle s u := ⟨h.same.trans k.same, k.events.trans h.events⟩

/-- ENC with one sample more in its buffer (R92). -/
def withSample (p : Config.Params) (v : Sample) (s : State) : State :=
  { s with
    encBuf := s.encBuf.write s.encWr v
    encWr := s.encWr + 1
    encPhase := if s.encWr + 1 = p.n then .emit else .accum }

/-- A SAMPLE item, taken in ACCUM, is stored in the slot `enc_wr` (R92). -/
theorem stepFor_sample {v : Sample} (hs : s.script = .stok (mkSToken 0 v) :: rest) (ph : s.encPhase = .accum)
    (hw : s.encWr < p.n) : stepFor p s = .next (withSample p v (advance rest s)) := by
  have selects : takeOfferFor p (.stok (mkSToken 0 v)) (advance rest s) = execFor p (.observe v) (advance rest s) := by
    simp [takeOfferFor, decodeFor, decodeS]
  rw [stepFor_of_head_ready hs (by simp [offerReady, sReady, ph]), selects]
  exact execFor_of_effect (by simp [enabled, ph]) ⟨hw, rfl⟩

/-- The frame's next byte on `tx`, before the index moves on (R93). -/
def withByte (p : Config.Params) (s : State) : State := txPut (emittedByte p s.encBuf s.encRd) s

/-- A `tx` transfer, taken in EMIT, puts the frame's next byte (R93). -/
theorem stepFor_transfer (hs : s.script = .txReady :: rest) (ph : s.encPhase = .emit) (hr : s.encRd < p.frameLen) :
    stepFor p s = .next (emitNext p (withByte p (advance rest s))) := by
  rw [stepFor_of_head_ready hs (by simp [offerReady, txValid, ph])]
  exact execFor_of_effect (i := .emit) (by simp [enabled, ph]) ⟨hr, rfl⟩

theorem stepFor_inner_transfer (hs : s.script = .txReady :: rest) (ph : s.encPhase = .emit)
    (hr : s.encRd + 1 < p.frameLen) :
    stepFor p s = .next { withByte p (advance rest s) with encRd := s.encRd + 1 } :=
  (stepFor_transfer hs ph (by omega)).trans (congrArg _ (if_neg hr.ne))

theorem stepFor_last_transfer (hs : s.script = .txReady :: rest) (ph : s.encPhase = .emit)
    (hr : s.encRd + 1 = p.frameLen) :
    stepFor p s = .next { withByte p (advance rest s) with encRd := 0, encWr := 0, encPhase := .accum } :=
  (stepFor_transfer hs ph (by omega)).trans (congrArg _ (if_pos hr))

/-- From `enc_wr` on, samples offered one after the other fill the buffer in order, and the last slot leads to EMIT. -/
theorem run_samples (samples : List Sample) (wf : s.encBuf.wf) (hs : s.script = sampleItems samples ++ rest)
    (ph : s.encPhase = if s.encWr = p.n then .emit else .accum) (room : s.encWr + samples.length = p.n) :
    ∃ t, runFor p samples.length s = .next t ∧ t.encPhase = .emit ∧ t.encRd = s.encRd ∧ t.txOut = s.txOut
      ∧ t.encBuf.firstSlots p.n = s.encBuf.firstSlots s.encWr ++ samples ∧ t.script = rest ∧ RxIdle s t := by
  induction samples generalizing s with
  | nil =>
    have full : s.encWr = p.n := room
    exact ⟨s, rfl, by rw [ph, if_pos full], rfl, rfl, by simp [full], hs, .refl s⟩
  | cons v samples ih =>
    have hw : s.encWr < p.n := by simp only [List.length_cons] at room; omega
    have step := stepFor_sample hs (by rw [ph, if_neg hw.ne]) hw
    obtain ⟨t, run, phase, rd, tx, slots, script, rx⟩ :=
      ih (s := withSample p v (advance (sampleItems samples ++ rest) s)) (Memory.write_wf wf s.encWr v) rfl rfl
        (by simp only [withSample, advance_encWr, List.length_cons] at room ⊢; omega)
    have idle : RxIdle s (withSample p v (advance (sampleItems samples ++ rest) s)) :=
      ⟨⟨rfl, rfl, rfl, rfl, rfl, rfl, rfl⟩, rfl⟩
    refine ⟨t, (runFor_succ_of_next step).trans run, phase, rd, tx, ?_, script, idle.trans rx⟩
    rw [slots]
    simp [withSample, Memory.firstSlots_succ, Memory.firstSlots_write wf le_rfl, Memory.read_write_same wf]

theorem drop_encodeFrame {buf : Memory} {i : Nat} (hi : i < p.frameLen) :
    (encodeFrame p (buf.firstSlots p.n)).drop i
      = emittedByte p buf i :: (encodeFrame p (buf.firstSlots p.n)).drop (i + 1) := by
  obtain ⟨within, byte⟩ := List.getElem?_eq_some_iff.1 (encodeFrame_getElem?_firstSlots (buf := buf) hi)
  rw [List.drop_eq_getElem_cons within, byte]

/-- From offset `enc_rd` on, the transfers that are left put the rest of the frame in the buffer (R97). -/
theorem run_transfers {k : Nat} (hs : s.script = List.replicate (k + 1) .txReady ++ rest) (ph : s.encPhase = .emit)
    (left : s.encRd + (k + 1) = p.frameLen) :
    ∃ t, runFor p (k + 1) s = .next t ∧ t.encPhase = .accum ∧ t.encWr = 0 ∧ t.encRd = 0
      ∧ t.txOut = s.txOut ++ (encodeFrame p (s.encBuf.firstSlots p.n)).drop s.encRd ∧ t.script = rest ∧ RxIdle s t := by
  induction k generalizing s with
  | zero =>
    have last : s.encRd + 1 = p.frameLen := left
    have ended : (encodeFrame p (s.encBuf.firstSlots p.n)).drop (s.encRd + 1) = [] :=
      List.drop_eq_nil_of_le (by rw [length_encodeFrame_n (by simp), last])
    rw [drop_encodeFrame (by omega), ended]
    exact ⟨_, runFor_succ_of_next (stepFor_last_transfer hs ph last), rfl, rfl, rfl, rfl, rfl,
      ⟨rfl, rfl, rfl, rfl, rfl, rfl, rfl⟩, rfl⟩
  | succ k ih =>
    have step := stepFor_inner_transfer (p := p) hs ph (by omega)
    have left' : s.encRd + 1 + (k + 1) = p.frameLen := by omega
    obtain ⟨t, run, phase, wr, rd, tx, script, rx⟩ :=
      ih (s := { withByte p (advance (List.replicate (k + 1) .txReady ++ rest) s) with encRd := s.encRd + 1 })
        rfl ph left'
    have idle : RxIdle s
        { withByte p (advance (List.replicate (k + 1) .txReady ++ rest) s) with encRd := s.encRd + 1 } :=
      ⟨⟨rfl, rfl, rfl, rfl, rfl, rfl, rfl⟩, rfl⟩
    refine ⟨t, (runFor_succ_of_next step).trans run, phase, wr, rd, ?_, script, idle.trans rx⟩
    rw [tx, drop_encodeFrame (i := s.encRd) (by omega)]
    exact List.append_assoc ..

end Cycle

/-- Settles O57: the samples fill the buffer, then the transfers put the frame of what it holds. -/
theorem frameCycleForAnyParameters : Obligations.FrameCycleForAnyParameters := by
  unfold Obligations.FrameCycleForAnyParameters
  intro p s samples rest wf ph wr rd len script
  have pos := p.n_pos
  have empty : s.encWr ≠ p.n := by omega
  obtain ⟨k, whole⟩ : ∃ k, p.frameLen = k + 1 := ⟨3 + 2 * p.n, by simp only [Config.Params.frameLen]; omega⟩
  rw [List.append_assoc] at script
  obtain ⟨u, filling, phase, rd', tx, slots, script', rx⟩ := run_samples samples wf script
    (by rw [ph, if_neg empty]) (by omega)
  obtain ⟨t, emitting, phase', wr'', rd'', tx', script'', rx'⟩ := run_transfers (whole ▸ script') phase
    (by rw [rd', rd, whole]; omega)
  have idle := rx.trans rx'
  refine ⟨t, ?_, ?_, phase', wr'', rd'', idle.same, idle.events, script''⟩
  · rw [← len, runFor_add filling, whole, emitting]
  · rw [tx', tx, rd', rd, slots, wr]
    simp

end Sys2Proof.Machine

namespace Sys2Proof.Machine

/-! ## The step and the default parameters -/

/-- The first item whose channel is open is the one taken; the items before it wait (R8, R91). -/
theorem firstReady_of_waiting {s : State} {waiting later : List Offer} {o : Offer}
    (hw : ∀ w ∈ waiting, offerReady s w = false) (ho : offerReady s o = true) :
    firstReady s (waiting ++ o :: later) = some (o, waiting ++ later) := by
  induction waiting with
  | nil => simp [firstReady, ho]
  | cons w waiting ih =>
    obtain ⟨closed, others⟩ := List.forall_mem_cons.1 hw
    simp [firstReady, closed, ih others]

/-- Settles O42: the fetch answers the first ready item, and what it decodes to is what is executed. -/
theorem stepRunsTheDecodedInstruction : Obligations.StepRunsTheDecodedInstruction := by
  unfold Obligations.StepRunsTheDecodedInstruction
  intro s waiting later o i script hw ho hd _
  have fetched : fetch s = some (o, waiting ++ later) := by rw [fetch, script, firstReady_of_waiting hw ho]
  have decoded : decode (advance (waiting ++ later) s).rxPhase o = .ok i := hd
  simp only [step, fetched, takeOffer, decoded]
  rfl

theorem step_eq_stepFor (s : State) : step s = stepFor Config.params s := by
  unfold step stepFor
  cases fetch s with
  | none => rfl
  | some found => exact takeOffer_eq_takeOfferFor found.1 (advance found.2 s)

/-- Settles O55: by induction on the number of steps, each of which is the parametric machine's. -/
theorem defaultParametersGiveThisHardware : Obligations.DefaultParametersGiveThisHardware := by
  unfold Obligations.DefaultParametersGiveThisHardware
  intro k
  induction k with
  | zero => exact fun s => rfl
  | succ k ih =>
    intro s
    have same : Sys2Proof.core.step s = (coreFor Config.params).step s := step_eq_stepFor s
    simp only [run, runFor, Host.Core.run, same]
    cases (coreFor Config.params).step s with
    | next t => exact ih t
    | fault r => rfl
    | refused r => rfl

/-! ## The environment's contracts -/

theorem tickDeadline_eq (first period n : Nat) : tickDeadline first period n = first + n * period := by
  induction n with
  | zero => simp [tickDeadline]
  | succ n ih => rw [tickDeadline, ih, Nat.succ_mul, Nat.add_assoc]

/-- Settles O58: deadlines by induction on their number, the period by the bounds of the floor. -/
theorem deadlinesSpanWholePeriods : Obligations.DeadlinesSpanWholePeriods := by
  unfold Obligations.DeadlinesSpanWholePeriods
  intro first period n rate
  refine ⟨tickDeadline_eq first period n, fun hr => ⟨1000000 / rate, if_neg (by omega), Nat.div_mul_le_self _ _, ?_⟩⟩
  rw [Nat.mul_comm]
  exact Nat.lt_mul_div_succ _ hr

/-- Settles O59: the window is what is left of the samples after dropping all but its capacity. -/
theorem windowKeepsTheMostRecentSamples : Obligations.WindowKeepsTheMostRecentSamples := by
  unfold Obligations.WindowKeepsTheMostRecentSamples
  intro capacity history new
  refine ⟨List.drop_suffix _ _, ?_⟩
  rw [windowAppend, List.length_drop, List.length_append]
  omega

end Sys2Proof.Machine

namespace Sys2Proof.Machine

/-! ## The invariant at reset and along this hardware's steps -/

theorem reset_inv (p : Config.Params) : Inv p State.reset where
  enc := ⟨fun _ => ⟨p.n_pos, rfl⟩, nofun, nofun⟩
  rx := rxInv_of_idle rfl (by decide)
  encBuf := ⟨Memory.wf_nil, nofun⟩
  decBuf := ⟨Memory.wf_nil, nofun⟩
  events := nofun

/-- Settles O45: the invariant holds at reset whatever the parameters are. -/
theorem resetMeetsTheInvariant : Obligations.ResetMeetsTheInvariant := reset_inv Config.params

/-- Settles O46: this hardware's step is the parametric machine's, which keeps the invariant. -/
theorem stepKeepsTheInvariant : Obligations.StepKeepsTheInvariant := by
  unfold Obligations.StepKeepsTheInvariant
  intro s t hs h
  rw [step_eq_stepFor] at h
  exact stepKeepsTheInvariantForAnyParameters Config.params s t hs h

end Sys2Proof.Machine

namespace Sys2Proof.Machine

section Stops

variable {p : Config.Params} {i : Instr} {s t : State} {r : Fault}

/-! ## Where the machine stops (R21, R34, R40; log 8) -/

/-- The access to a slot that does not exist which an instruction makes where it is enabled, as the fault it is. -/
def MissingSlot (p : Config.Params) (i : Instr) (s : State) (r : Fault) : Prop :=
  match i with
  | .observe _ => p.n ≤ s.encWr ∧ r = .noSuchEncSlot s.encWr
  | .emit => p.frameLen ≤ s.encRd ∧ r = .noSuchEncSlot ((s.encRd - 4) / 2)
  | .payloadByte _ => s.decIdx % 2 = 1 ∧ Config.decCap ≤ s.decIdx / 2 ∧ r = .noSuchDecSlot (s.decIdx / 2)
  | _ => False

theorem execFor_of_missingSlot (on : enabled i s) (missing : MissingSlot p i s r) : execFor p i s = .fault r := by
  cases i
  case observe v =>
    obtain ⟨hw, rfl⟩ := missing
    exact (if_pos (of_decide_eq_true on)).trans (if_neg hw.not_gt)
  case emit =>
    obtain ⟨hr, rfl⟩ := missing
    exact (if_pos (of_decide_eq_true on)).trans (if_neg hr.not_gt)
  case payloadByte b =>
    obtain ⟨odd, hc, rfl⟩ := missing
    have takes : rxTakesIn [.payload] s := (rxTakesIn_rowPhases (i := .payloadByte b) rfl s).trans on
    exact (if_pos takes).trans ((if_neg (by omega)).trans (if_neg hc.not_gt))
  all_goals cases missing

/-- An enabled instruction has its effect, or accesses a missing slot, or is refused in every state. -/
theorem effect_or_missingSlot_or_refused (on : enabled i s) :
    (∃ t, Effect p i s t) ∨ (∃ r, MissingSlot p i s r) ∨ ∃ why, ∀ u, execFor p i u = .refused why := by
  cases i
  case wire samples =>
    by_cases hl : samples.length ≤ 65535
    · exact .inl ⟨_, hl, rfl⟩
    · exact .inr (.inr ⟨_, fun u => if_neg hl⟩)
  case observe v =>
    by_cases hw : s.encWr < p.n
    · exact .inl ⟨_, hw, rfl⟩
    · exact .inr (.inl ⟨_, not_lt.1 hw, rfl⟩)
  case emit =>
    by_cases hr : s.encRd < p.frameLen
    · exact .inl ⟨_, hr, rfl⟩
    · exact .inr (.inl ⟨_, not_lt.1 hr, rfl⟩)
  case payloadByte b =>
    rcases Nat.mod_two_eq_zero_or_one s.decIdx with even | odd
    · exact .inl ⟨_, .inl ⟨even, rfl⟩⟩
    · by_cases hc : s.decIdx / 2 < Config.decCap
      · exact .inl ⟨_, .inr ⟨odd, hc, rfl⟩⟩
      · exact .inr (.inl ⟨_, odd, not_lt.1 hc, rfl⟩)
  case handoff =>
    obtain ⟨e, he⟩ := Option.ne_none_iff_exists'.1 (mt pendingEvent_eq_none.1 (of_decide_eq_true on))
    exact .inl ⟨_, e, he, rfl⟩
  case reservedRxKind3 x => exact .inr (.inr ⟨_, fun u => rfl⟩)
  all_goals exact .inl ⟨_, rfl⟩

/-- An instruction faults exactly where it is enabled and its slot does not exist. -/
theorem execFor_eq_fault_iff : execFor p i s = .fault r ↔ enabled i s ∧ MissingSlot p i s r := by
  refine ⟨fun h => ?_, fun ⟨on, missing⟩ => execFor_of_missingSlot on missing⟩
  by_cases on : enabled i s
  · rcases effect_or_missingSlot_or_refused (p := p) on with ⟨t, effect⟩ | ⟨r', missing⟩ | ⟨why, refused⟩
    · cases h.symm.trans (execFor_of_effect on effect)
    · cases h.symm.trans (execFor_of_missingSlot on missing)
      exact ⟨on, missing⟩
    · cases h.symm.trans (refused s)
  · cases h.symm.trans (execFor_of_not_enabled on)

/-- Under the invariant every slot that an enabled instruction accesses exists. -/
theorem Inv.not_missingSlot (hs : Inv p s) (on : enabled i s) : ¬ MissingSlot p i s r := by
  intro missing
  cases i
  case observe v =>
    obtain ⟨hw, -⟩ := missing
    exact absurd (hs.enc.accum (of_decide_eq_true on)).1 hw.not_gt
  case emit =>
    obtain ⟨hr, -⟩ := missing
    exact absurd (hs.enc.emit (of_decide_eq_true on)).2 hr.not_gt
  case payloadByte b =>
    obtain ⟨-, hc, -⟩ := missing
    have ph : s.rxPhase = .payload := of_decide_eq_true (of_decide_eq_true on).2
    have idx := (hs.rx.payload ph).2
    have count := s.decCount.isLt
    simp only [Config.decCap] at hc
    omega
  all_goals cases missing

theorem takeOfferFor_fault {o : Offer} (h : takeOfferFor p o s = .fault r) : ∃ i, execFor p i s = .fault r := by
  unfold takeOfferFor at h
  split at h
  · exact ⟨_, h⟩
  · cases h

theorem stepFor_ne_fault (hs : Inv p s) : stepFor p s ≠ .fault r := by
  intro h
  unfold stepFor at h
  split at h
  · obtain ⟨i, hi⟩ := takeOfferFor_fault h
    obtain ⟨on, missing⟩ := execFor_eq_fault_iff.1 hi
    exact (advance_inv _ hs).not_missingSlot on missing
  · cases h

end Stops

/-- Settles O48: the missing slots of the three operations, read off at the default parameters. -/
theorem faultsOnlyAtMissingSlots : Obligations.FaultsOnlyAtMissingSlots := by
  unfold Obligations.FaultsOnlyAtMissingSlots
  intro i s
  simp only [exec_eq_execFor, execFor_eq_fault_iff]
  constructor
  · rintro ⟨r, on, missing⟩
    cases i
    case observe v =>
      obtain ⟨hw, -⟩ := missing
      exact .inl ⟨⟨v, rfl⟩, of_decide_eq_true on, hw⟩
    case emit =>
      obtain ⟨hr, -⟩ := missing
      exact .inr (.inl ⟨rfl, of_decide_eq_true on, hr⟩)
    case payloadByte b =>
      obtain ⟨odd, hc, -⟩ := missing
      obtain ⟨hp, ph⟩ := of_decide_eq_true on
      exact .inr (.inr ⟨⟨b, rfl⟩, of_decide_eq_true ph, hp, odd, hc⟩)
    all_goals cases missing
  · rintro (⟨⟨v, rfl⟩, ph, hw⟩ | ⟨rfl, ph, hr⟩ | ⟨⟨b, rfl⟩, ph, hp, odd, hc⟩)
    · exact ⟨_, decide_eq_true ph, hw, rfl⟩
    · exact ⟨_, decide_eq_true ph, hr, rfl⟩
    · exact ⟨_, decide_eq_true ⟨hp, decide_eq_true ph⟩, odd, hc, rfl⟩

/-- Settles O47: a step faults only with the instruction it takes, and under the invariant none does. -/
theorem noStepFaultsUnderTheInvariant : Obligations.NoStepFaultsUnderTheInvariant := by
  unfold Obligations.NoStepFaultsUnderTheInvariant
  intro s r hs
  rw [step_eq_stepFor]
  exact stepFor_ne_fault hs

end Sys2Proof.Machine

namespace Sys2Proof.Machine

section Writes

variable {p : Config.Params} {i : Instr} {s t : State}

/-! ## Who writes what (R39) -/

/-- The rows of ENC's registers in the table of R39, over any parameters: the operation that changed a register is one that
may write it, with the value the table adds. -/
structure EncWrites (p : Config.Params) (i : Instr) (s t : State) : Prop where
  buf : t.encBuf ≠ s.encBuf → ∃ v, i = .observe v
  wr : t.encWr ≠ s.encWr → (∃ v, i = .observe v) ∧ t.encWr = s.encWr + 1
    ∨ (i = .emit ∧ s.encRd + 1 = p.frameLen ∨ i = .encReset) ∧ t.encWr = 0
  rd : t.encRd ≠ s.encRd → i = .emit ∨ i = .encReset
  phase : t.encPhase ≠ s.encPhase → (∃ v, i = .observe v) ∧ t.encPhase = .emit ∨ i = .emit ∧ t.encPhase = .accum
    ∨ (∃ x, i = .acqFault x) ∧ t.encPhase = .halt ∨ i = .encReset ∧ t.encPhase = .accum

/-- The rows of RX's registers in the table of R39. -/
structure RxWrites (i : Instr) (s t : State) : Prop where
  phase : t.rxPhase ≠ s.rxPhase → i.takesRxToken ∨ i = .rxReset
  countLow : lowByte t.decCount ≠ lowByte s.decCount → ∃ b, i = .cntLoByte b
  countHigh : highByte t.decCount ≠ highByte s.decCount → ∃ b, i = .cntHiByte b
  lo : t.decLo ≠ s.decLo → (∃ b, i = .payloadByte b) ∧ s.decIdx % 2 = 0
  idx : t.decIdx ≠ s.decIdx →
    (∃ b, i = .cntHiByte b) ∧ t.decIdx = 0 ∨ (∃ b, i = .payloadByte b) ∧ t.decIdx = s.decIdx + 1
  buf : t.decBuf ≠ s.decBuf → (∃ b, i = .payloadByte b) ∧ s.decIdx % 2 = 1
  pend : t.oPend ≠ s.oPend → (∃ b, i = .cntHiByte b) ∧ t.decCount = 0
    ∨ (∃ b, i = .payloadByte b) ∧ s.decIdx + 1 = 2 * s.decCount.toNat ∨ i.raises? ≠ none
    ∨ (i = .handoff ∨ i = .rxReset) ∧ t.oPend = .none
  cause : t.oCause ≠ s.oCause → i.raises? ≠ none

theorem EncSame.encWrites (same : EncSame s t) : EncWrites p i s t :=
  ⟨absurd same.buf, absurd same.wr, absurd same.rd, absurd same.phase⟩

theorem RxSame.rxWrites (same : RxSame s t) : RxWrites i s t where
  phase := absurd same.phase
  countLow := absurd (congrArg lowByte same.count)
  countHigh := absurd (congrArg highByte same.count)
  lo := absurd same.lo
  idx := absurd same.idx
  buf := absurd same.buf
  pend := absurd same.pend
  cause := absurd same.cause

theorem Effect.encWrites_of_ofEnc (h : Effect p i s t) (hi : i.ofEnc) (on : enabled i s) : EncWrites p i s t := by
  have unchanged : EncWrites p i s s := (EncSame.refl s).encWrites
  cases i <;> simp only [Instr.ofEnc, Bool.false_eq_true] at hi
  case observe v =>
    obtain ⟨-, rfl⟩ := h
    have ph : s.encPhase = .accum := of_decide_eq_true on
    refine { unchanged with
      buf := fun _ => ⟨v, rfl⟩
      wr := fun _ => .inl ⟨⟨v, rfl⟩, rfl⟩
      phase := fun changed => ?_ }
    by_cases full : s.encWr + 1 = p.n
    · exact .inl ⟨⟨v, rfl⟩, if_pos full⟩
    · exact absurd ((if_neg full).trans ph.symm) changed
  case acqFault x => cases h; exact { unchanged with phase := fun _ => .inr (.inr (.inl ⟨⟨x, rfl⟩, rfl⟩)) }
  case emit =>
    obtain ⟨-, rfl⟩ := h
    rcases emitNext_cases p (txPut (emittedByte p s.encBuf s.encRd) s) with ⟨last, e⟩ | ⟨-, e⟩ <;> rw [e]
    · exact { unchanged with
        wr := fun _ => .inr ⟨.inl ⟨rfl, last⟩, rfl⟩
        rd := fun _ => .inl rfl
        phase := fun _ => .inr (.inl ⟨rfl, rfl⟩) }
    · exact { unchanged with rd := fun _ => .inl rfl }
  case encReset =>
    cases h
    exact { unchanged with
      wr := fun _ => .inr ⟨.inr rfl, rfl⟩
      rd := fun _ => .inr rfl
      phase := fun _ => .inr (.inr (.inr ⟨rfl, rfl⟩)) }

theorem Effect.rxWrites_of_ofRx (h : Effect p i s t) (hi : i.ofRx) : RxWrites i s t := by
  have unchanged : RxWrites i s s := (RxSame.refl s).rxWrites
  cases i <;> simp only [Instr.ofRx, Bool.false_eq_true] at hi
  case seek1Byte b => cases h; exact { unchanged with phase := fun _ => .inl rfl }
  case seek2Byte b => cases h; exact { unchanged with phase := fun _ => .inl rfl }
  case cntLoByte b =>
    cases h
    exact { unchanged with
      phase := fun _ => .inl rfl
      countLow := fun _ => ⟨b, rfl⟩
      countHigh := absurd (highByte_word16 _ _)
      pend := absurd rfl }
  case cntHiByte b =>
    cases h
    have low : lowByte (word16 b (lowByte s.decCount)) = lowByte s.decCount := lowByte_word16 _ _
    rcases startPayload_cases { s with decCount := word16 b (lowByte s.decCount) } with ⟨zero, e⟩ | ⟨-, e⟩ <;> rw [e]
    · exact { unchanged with
        phase := fun _ => .inl rfl
        countLow := absurd low
        countHigh := fun _ => ⟨b, rfl⟩
        pend := fun _ => .inl ⟨⟨b, rfl⟩, zero⟩ }
    · exact { unchanged with
        phase := fun _ => .inl rfl
        countLow := absurd low
        countHigh := fun _ => ⟨b, rfl⟩
        idx := fun _ => .inl ⟨⟨b, rfl⟩, rfl⟩
        pend := absurd rfl }
  case payloadByte b =>
    have next {u : State} (hu : RxWrites (.payloadByte b) s u) (idx : u.decIdx = s.decIdx)
        (count : u.decCount = s.decCount) : RxWrites (.payloadByte b) s (payloadNext u) := by
      rcases payloadNext_cases u with ⟨last, e⟩ | ⟨-, e⟩ <;> rw [e]
      · rw [idx, count] at last
        exact { hu with phase := fun _ => .inl rfl, pend := fun _ => .inr (.inl ⟨⟨b, rfl⟩, last⟩) }
      · exact { hu with idx := fun _ => .inr ⟨⟨b, rfl⟩, congrArg (· + 1) idx⟩ }
    rcases h with ⟨even, rfl⟩ | ⟨odd, -, rfl⟩
    · exact next { unchanged with lo := fun _ => ⟨⟨b, rfl⟩, even⟩ } rfl rfl
    · exact next { unchanged with buf := fun _ => ⟨⟨b, rfl⟩, odd⟩ } rfl rfl
  case handoff =>
    obtain ⟨e, -, rfl⟩ := h
    exact { unchanged with pend := fun _ => .inr (.inr (.inr ⟨.inl rfl, rfl⟩)) }
  case rxReset =>
    cases h
    exact { unchanged with
      phase := fun _ => .inr rfl
      pend := fun _ => .inr (.inr (.inr ⟨.inr rfl, rfl⟩)) }
  case seekTimeout | seekEos | decTimeout | decEos =>
    cases h
    exact { unchanged with
      phase := fun _ => .inl rfl
      pend := fun _ => .inr (.inr (.inl nofun))
      cause := fun _ => nofun }

/-- Whatever an instruction changes when it goes on, the table of R39 lets it write. -/
theorem execFor_writes (h : execFor p i s = .next t) : EncWrites p i s t ∧ RxWrites i s t := by
  rcases execFor_next h with ⟨-, rfl⟩ | ⟨on, effect⟩
  · exact ⟨(EncSame.refl t).encWrites, (RxSame.refl t).rxWrites⟩
  · have ofEnc (hi : i.ofEnc) : EncWrites p i s t ∧ RxWrites i s t :=
      ⟨effect.encWrites_of_ofEnc hi on, (effect.rxSame_of_ofEnc hi).rxWrites⟩
    have ofRx (hi : i.ofRx) : EncWrites p i s t ∧ RxWrites i s t :=
      ⟨(effect.encSame_of_ofRx hi).encWrites, effect.rxWrites_of_ofRx hi⟩
    cases i
    case wire samples =>
      obtain ⟨-, rfl⟩ := effect
      exact ⟨EncSame.encWrites ⟨rfl, rfl, rfl, rfl⟩, RxSame.rxWrites ⟨rfl, rfl, rfl, rfl, rfl, rfl, rfl⟩⟩
    case observe | acqFault | emit | encReset => exact ofEnc rfl
    case reservedRxKind3 => cases effect
    all_goals exact ofRx rfl

end Writes

/-- Settles O38: the rows of the two blocks' tables at the default parameters, where the last byte has index 1027. -/
theorem onlyTheListedOperationsWrite : Obligations.OnlyTheListedOperationsWrite := by
  unfold Obligations.OnlyTheListedOperationsWrite
  intro i s t h
  rw [exec_eq_execFor] at h
  obtain ⟨enc, rx⟩ := execFor_writes h
  have last : (s.encRd + 1 = Config.params.frameLen) = (s.encRd = 1027) := propext Nat.succ_inj
  exact ⟨enc.buf, last ▸ enc.wr, enc.rd, enc.phase, rx.phase, rx.countLow, rx.countHigh, rx.lo, rx.idx, rx.buf, rx.pend,
    rx.cause⟩

section Emission

variable {p : Config.Params} {i : Instr} {s t : State}

/-! ## Counting the bytes put (R25 e) -/

theorem bytesPut_of_ne_emit (hi : i ≠ .emit) : bytesPut p i s = [] := by
  cases i
  case emit => exact absurd rfl hi
  all_goals rfl

/-- Only EMIT, where it is enabled, and ENC_RESET move the emission index; any other instruction leaves it and the trace of
`tx`. -/
theorem execFor_keeps_emission (h : execFor p i s = .next t) (hi : ¬ (i = .emit ∧ s.encPhase = .emit))
    (hr : i ≠ .encReset) : t.encRd = s.encRd ∧ t.txOut = s.txOut := by
  rcases execFor_next h with ⟨-, rfl⟩ | ⟨on, -⟩
  · exact ⟨rfl, rfl⟩
  · have ne : i ≠ .emit := by rintro rfl; exact hi ⟨rfl, of_decide_eq_true on⟩
    exact ⟨by_contra fun moved => ((execFor_writes h).1.rd moved).elim ne hr, execFor_txOut h (bytesPut_of_ne_emit ne)⟩

/-- EMIT puts one byte and moves the index on by one, back to 0 after the last byte of the frame. -/
theorem execFor_emit_counts (h : execFor p .emit s = .next t) (on : s.encPhase = .emit) :
    t.txOut.length = s.txOut.length + 1 ∧ t.encRd = if s.encRd + 1 = p.frameLen then 0 else s.encRd + 1 := by
  rcases emit_next h with ⟨off, -⟩ | ⟨-, -, rfl⟩
  · exact absurd on off
  · refine ⟨by simp, ?_⟩
    unfold emitNext
    split <;> simp_all

end Emission

/-- Settles O18: EMIT adds one byte and either one to `enc_rd` or a whole frame; the others add none. -/
theorem bytesPutCountWholeFrames : Obligations.BytesPutCountWholeFrames := by
  unfold Obligations.BytesPutCountWholeFrames
  intro i s t before frames hr h counted
  rw [exec_eq_execFor] at h
  by_cases emits : i = .emit ∧ s.encPhase = .emit
  · obtain ⟨rfl, on⟩ := emits
    obtain ⟨bytes, index⟩ := execFor_emit_counts h on
    have last : s.encRd + 1 = Config.params.frameLen ↔ s.encRd = 1027 := Nat.succ_inj
    simp only [bytes, index, on, true_and, last]
    split <;> omega
  · obtain ⟨index, bytes⟩ := execFor_keeps_emission h emits hr
    rw [index, bytes, counted, if_neg (fun ⟨hi, on, _⟩ => emits ⟨hi, on⟩)]

end Sys2Proof.Machine

namespace Sys2Proof.Machine

section Ports

variable {s : State}

/-! ## What the ports show (R26, R36, R77, R180) -/

theorem oCount_of_frame (hp : s.oPend = .frame) : oCount s = s.decCount := if_pos hp

/-- The read port, at the addresses of a pending frame's samples. -/
theorem oRdata_of_frame (hp : s.oPend = .frame) {j : Nat} (hj : j < s.decCount.toNat) :
    oRdata s (BitVec.ofNat 16 j) = s.decBuf.read j := by
  have address : (BitVec.ofNat 16 j).toNat = j := by
    rw [BitVec.toNat_ofNat, Nat.mod_eq_of_lt (hj.trans s.decCount.isLt)]
  simp [oRdata, hp, address, hj]

/-- A pending frame is what `o_count` and the read port show of it. -/
theorem pendingEvent_of_frame (hp : s.oPend = .frame) :
    pendingEvent s = some (.frame (oCount s)
      ((List.range (oCount s).toNat).map fun j => toS16 (oRdata s (BitVec.ofNat 16 j)))) := by
  have samples : (s.decBuf.firstSlots s.decCount.toNat).map toS16
      = (List.range s.decCount.toNat).map fun j => toS16 (oRdata s (BitVec.ofNat 16 j)) := by
    rw [Memory.firstSlots, List.map_map]
    exact List.map_congr_left fun j hj => congrArg toS16 (oRdata_of_frame hp (List.mem_range.1 hj)).symm
  rw [oCount_of_frame hp, ← samples]
  simp only [pendingEvent, hp]

end Ports

/-- Settles O32: HANDOFF delivers the pending event, which is what the ports show. -/
theorem portsShowWhatIsHandedOver : Obligations.PortsShowWhatIsHandedOver := by
  unfold Obligations.PortsShowWhatIsHandedOver
  intro s hp
  have kind : oKind s = 1#2 := by rw [oKind, hp]; rfl
  refine ⟨by rw [oEvtWord, kind, oCount_of_frame hp], ?_⟩
  rw [exec_eq_execFor]
  exact ⟨_, execFor_of_effect (by simp [enabled, hp]) ⟨_, pendingEvent_of_frame hp, rfl⟩, rfl⟩

/-- Settles O41: ENC has one phase at a time, and RX either takes tokens or owes an event. -/
theorem channelsAreNeverOpenBothWays : Obligations.ChannelsAreNeverOpenBothWays := by
  unfold Obligations.ChannelsAreNeverOpenBothWays
  intro s
  refine ⟨fun ⟨takes, puts⟩ => ?_, ?_, ?_, rfl, rfl, rfl, rfl⟩
  · have accum : s.encPhase = .accum := by simpa [sReady] using takes
    simp [txValid, accum] at puts
  · simp [rxReady, oValid]
  · cases hp : s.oPend <;> simp [oKind, oValid, hp]

end Sys2Proof.Machine

namespace Sys2Proof.Machine

section Alike

variable {p : Config.Params} {i : Instr} {s s' t t' : State} {r : Fault}

/-! ## What ENC shows of its registers (R25 d, R181)

Two ENCs whose scalar registers agree show the same as long as the slots that were written since the buffer was last empty
agree: the others are written before they are read. -/

/-- ENC as a reset and what came after it left it: the invariant holds, and all that may differ is what stands in slots not
written since. -/
structure EncFresh (p : Config.Params) (s t : State) : Prop where
  wr : t.encWr = s.encWr
  rd : t.encRd = s.encRd
  phase : t.encPhase = s.encPhase
  inv : EncInv p s
  wf : s.encBuf.wf
  wf' : t.encBuf.wf
  slots : ∀ j < s.encWr, t.encBuf.read j = s.encBuf.read j

/-- No operation tells the two ENCs apart. -/
def EncAlike (p : Config.Params) (s t : State) : Prop := EncSame s t ∨ EncFresh p s t

theorem EncFresh.of_encSame (f : EncFresh p s t) (hs : EncSame s s') (ht : EncSame t t') : EncFresh p s' t' where
  wr := ht.wr.trans (f.wr.trans hs.wr.symm)
  rd := ht.rd.trans (f.rd.trans hs.rd.symm)
  phase := ht.phase.trans (f.phase.trans hs.phase.symm)
  inv := f.inv.of_encSame hs
  wf := hs.buf ▸ f.wf
  wf' := ht.buf ▸ f.wf'
  slots := by rw [hs.wr, hs.buf, ht.buf]; exact f.slots

theorem EncFresh.emitNext (f : EncFresh p s t) (inv : EncInv p (emitNext p s)) :
    EncFresh p (emitNext p s) (emitNext p t) := by
  unfold Machine.emitNext at inv ⊢
  rw [f.rd]
  by_cases last : s.encRd + 1 = p.frameLen
  · simp only [if_pos last] at inv ⊢
    exact { f with wr := rfl, rd := rfl, phase := rfl, inv := inv, slots := nofun }
  · simp only [if_neg last] at inv ⊢
    exact { f with rd := rfl, inv := inv }

/-- The byte that EMIT puts comes from a slot written since the reset. -/
theorem EncFresh.emittedByte_eq (f : EncFresh p s t) (ph : s.encPhase = .emit) :
    emittedByte p t.encBuf t.encRd = emittedByte p s.encBuf s.encRd := by
  obtain ⟨full, within⟩ := f.inv.emit ph
  have pos := p.n_pos
  have slot : t.encBuf.read ((s.encRd - 4) / 2) = s.encBuf.read ((s.encRd - 4) / 2) :=
    f.slots _ (by simp only [Config.Params.frameLen] at within; omega)
  simp only [emittedByte, f.rd, slot]

theorem Effect.of_encFresh (h : Effect p i s s') (hi : i.ofEnc) (on : enabled i s) (f : EncFresh p s t) :
    ∃ t', Effect p i t t' ∧ EncFresh p s' t' := by
  have inv : EncInv p s' := h.encInv hi f.inv on
  cases i <;> simp only [Instr.ofEnc, Bool.false_eq_true] at hi
  case observe v =>
    obtain ⟨hw, rfl⟩ := h
    refine ⟨_, ⟨f.wr ▸ hw, rfl⟩, ?_⟩
    simp only [f.wr]
    refine ⟨rfl, f.rd, rfl, inv, Memory.write_wf f.wf _ _, Memory.write_wf f.wf' _ _,
      fun j (hj : j < s.encWr + 1) => ?_⟩
    simp only [Memory.read_write f.wf, Memory.read_write f.wf']
    split
    · rfl
    · exact f.slots j (by omega)
  case acqFault x => cases h; exact ⟨_, rfl, { f with phase := rfl, inv := inv }⟩
  case emit =>
    obtain ⟨hr, rfl⟩ := h
    exact ⟨_, ⟨f.rd ▸ hr, rfl⟩,
      EncFresh.emitNext (s := txPut _ s) (f.of_encSame ⟨rfl, rfl, rfl, rfl⟩ ⟨rfl, rfl, rfl, rfl⟩) inv⟩
  case encReset => cases h; exact ⟨_, rfl, { f with wr := rfl, rd := rfl, phase := rfl, inv := inv, slots := nofun }⟩

theorem EncAlike.of_encSame (a : EncAlike p s t) (hs : EncSame s s') (ht : EncSame t t') : EncAlike p s' t' :=
  a.imp (fun same => ⟨ht.buf.trans (same.buf.trans hs.buf.symm), ht.wr.trans (same.wr.trans hs.wr.symm),
    ht.rd.trans (same.rd.trans hs.rd.symm), ht.phase.trans (same.phase.trans hs.phase.symm)⟩)
    (·.of_encSame hs ht)

theorem EncAlike.wr (a : EncAlike p s t) : t.encWr = s.encWr := a.elim (·.wr) (·.wr)

theorem EncAlike.rd (a : EncAlike p s t) : t.encRd = s.encRd := a.elim (·.rd) (·.rd)

theorem EncAlike.phase (a : EncAlike p s t) : t.encPhase = s.encPhase := a.elim (·.phase) (·.phase)

theorem EncAlike.emittedByte_eq (a : EncAlike p s t) (ph : s.encPhase = .emit) :
    emittedByte p t.encBuf t.encRd = emittedByte p s.encBuf s.encRd :=
  a.elim (fun same => by rw [same.buf, same.rd]) (·.emittedByte_eq ph)

theorem EncAlike.bytesPut_eq (a : EncAlike p s t) (on : enabled i s) : bytesPut p i t = bytesPut p i s := by
  cases i
  case emit => exact congrArg (fun b => [b]) (a.emittedByte_eq (of_decide_eq_true on))
  all_goals rfl

theorem Effect.of_encAlike (h : Effect p i s s') (hi : i.ofEnc) (on : enabled i s) (a : EncAlike p s t) :
    ∃ t', Effect p i t t' ∧ EncAlike p s' t' := by
  rcases a with same | fresh
  · obtain ⟨t', effect, same'⟩ := h.of_encSame hi same
    exact ⟨t', effect, .inl same'⟩
  · obtain ⟨t', effect, fresh'⟩ := h.of_encFresh hi on fresh
    exact ⟨t', effect, .inr fresh'⟩

/-! ## What RX shows of its registers (R38 d, R182)

Which of its data registers RX will still read is a matter of its phase and of what it owes; the others are written
first. -/

/-- What RX will still read of a payload in progress agrees: the count, the index, a low byte that waits for its high byte,
and the slots filled so far. -/
structure PayloadSame (s t : State) : Prop where
  count : t.decCount = s.decCount
  idx : t.decIdx = s.decIdx
  lo : s.decIdx % 2 = 1 → t.decLo = s.decLo
  slots : ∀ j < s.decIdx / 2, t.decBuf.read j = s.decBuf.read j

/-- What RX will still read of a pending frame agrees. -/
structure FrameSame (s t : State) : Prop where
  count : t.decCount = s.decCount
  slots : ∀ j < s.decCount.toNat, t.decBuf.read j = s.decBuf.read j

/-- RX as a reset and what came after it left it: all that may differ is what it will not read before it has written it. -/
structure RxFresh (s t : State) : Prop where
  phase : t.rxPhase = s.rxPhase
  pend : t.oPend = s.oPend
  wf : s.decBuf.wf
  wf' : t.decBuf.wf
  low : s.rxPhase = .cntHi → lowByte t.decCount = lowByte s.decCount
  payload : s.rxPhase = .payload → PayloadSame s t
  frame : s.oPend = .frame → FrameSame s t
  cause : s.oPend = .fault → t.oCause = s.oCause

/-- No operation tells the two RXs apart. -/
def RxAlike (s t : State) : Prop := RxSame s t ∨ RxFresh s t

theorem PayloadSame.of_rxSame (h : PayloadSame s t) (hs : RxSame s s') (ht : RxSame t t') : PayloadSame s' t' where
  count := ht.count.trans (h.count.trans hs.count.symm)
  idx := ht.idx.trans (h.idx.trans hs.idx.symm)
  lo := by rw [hs.idx, hs.lo, ht.lo]; exact h.lo
  slots := by rw [hs.idx, hs.buf, ht.buf]; exact h.slots

theorem FrameSame.of_rxSame (h : FrameSame s t) (hs : RxSame s s') (ht : RxSame t t') : FrameSame s' t' where
  count := ht.count.trans (h.count.trans hs.count.symm)
  slots := by rw [hs.count, hs.buf, ht.buf]; exact h.slots

theorem RxFresh.of_rxSame (f : RxFresh s t) (hs : RxSame s s') (ht : RxSame t t') : RxFresh s' t' where
  phase := ht.phase.trans (f.phase.trans hs.phase.symm)
  pend := ht.pend.trans (f.pend.trans hs.pend.symm)
  wf := hs.buf ▸ f.wf
  wf' := ht.buf ▸ f.wf'
  low := by rw [hs.phase, hs.count, ht.count]; exact f.low
  payload := by rw [hs.phase]; exact fun ph => (f.payload ph).of_rxSame hs ht
  frame := by rw [hs.pend]; exact fun hp => (f.frame hp).of_rxSame hs ht
  cause := by rw [hs.pend, hs.cause, ht.cause]; exact f.cause

theorem RxSame.payloadSame (same : RxSame s t) : PayloadSame s t :=
  ⟨same.count, same.idx, fun _ => same.lo, fun _ _ => by rw [same.buf]⟩

theorem RxSame.frameSame (same : RxSame s t) : FrameSame s t := ⟨same.count, fun _ _ => by rw [same.buf]⟩

theorem RxAlike.of_rxSame (a : RxAlike s t) (hs : RxSame s s') (ht : RxSame t t') : RxAlike s' t' :=
  a.imp (fun same => ⟨ht.phase.trans (same.phase.trans hs.phase.symm), ht.count.trans (same.count.trans hs.count.symm),
    ht.lo.trans (same.lo.trans hs.lo.symm), ht.idx.trans (same.idx.trans hs.idx.symm),
    ht.buf.trans (same.buf.trans hs.buf.symm), ht.pend.trans (same.pend.trans hs.pend.symm),
    ht.cause.trans (same.cause.trans hs.cause.symm)⟩)
    (·.of_rxSame hs ht)

theorem RxAlike.phase (a : RxAlike s t) : t.rxPhase = s.rxPhase := a.elim (·.phase) (·.phase)

theorem RxAlike.pend (a : RxAlike s t) : t.oPend = s.oPend := a.elim (·.pend) (·.pend)

theorem RxAlike.payload (a : RxAlike s t) (ph : s.rxPhase = .payload) : PayloadSame s t :=
  a.elim (·.payloadSame) (·.payload ph)

theorem RxAlike.frame (a : RxAlike s t) (hp : s.oPend = .frame) : FrameSame s t := a.elim (·.frameSame) (·.frame hp)

theorem RxAlike.cause (a : RxAlike s t) (hp : s.oPend = .fault) : t.oCause = s.oCause := a.elim (·.cause) (·.cause hp)

theorem RxAlike.pendingEvent_eq (a : RxAlike s t) : pendingEvent t = pendingEvent s := by
  have pend := a.pend
  cases hp : s.oPend
  case none => rw [pendingEvent_eq_none.2 hp, pendingEvent_eq_none.2 (pend.trans hp)]
  case frame =>
    obtain ⟨count, slots⟩ := a.frame hp
    have samples : t.decBuf.firstSlots s.decCount.toNat = s.decBuf.firstSlots s.decCount.toNat :=
      List.map_congr_left fun j hj => slots j (List.mem_range.1 hj)
    simp only [pendingEvent, pend, hp, count, samples]
  case fault => simp only [pendingEvent, pend, hp, a.cause hp]

theorem RxAlike.eventsDelivered_eq (a : RxAlike s t) : eventsDelivered i t = eventsDelivered i s := by
  cases i
  case handoff => exact congrArg Option.toList a.pendingEvent_eq
  all_goals rfl

/-- With nothing owed and no frame in progress past its low count byte, RX has nothing it will still read. -/
theorem rxFresh_of_idle (phase : t.rxPhase = s.rxPhase) (pend : t.oPend = s.oPend) (wf : s.decBuf.wf) (wf' : t.decBuf.wf)
    (idle : s.oPend = .none) (notHi : s.rxPhase ≠ .cntHi) (notPayload : s.rxPhase ≠ .payload) : RxFresh s t where
  phase := phase
  pend := pend
  wf := wf
  wf' := wf'
  low := fun ph => absurd ph notHi
  payload := fun ph => absurd ph notPayload
  frame := fun hp => absurd (idle.symm.trans hp) nofun
  cause := fun hp => absurd (idle.symm.trans hp) nofun

theorem rxFresh_startPayload (wf : s.decBuf.wf) (wf' : t.decBuf.wf) (idle : s.oPend = .none) (pend : t.oPend = s.oPend)
    (count : t.decCount = s.decCount) : RxFresh (startPayload s) (startPayload t) := by
  unfold startPayload
  rw [count]
  split
  case isTrue zero =>
    exact ⟨rfl, rfl, wf, wf', nofun, nofun, fun _ => ⟨count, fun j hj => by simp [zero] at hj⟩, nofun⟩
  case isFalse =>
    exact ⟨rfl, pend, wf, wf', nofun, fun _ => ⟨rfl, rfl, nofun, fun j hj => by simp at hj⟩,
      fun hp => absurd (idle.symm.trans hp) nofun, fun hp => absurd (idle.symm.trans hp) nofun⟩

/-- A payload byte taken alike leaves RX alike: the last one fills the last of the frame's slots. -/
theorem rxFresh_payloadNext (wf : s.decBuf.wf) (wf' : t.decBuf.wf) (idle : s.oPend = .none) (pend : t.oPend = s.oPend)
    (ph : s.rxPhase = .payload) (phase : t.rxPhase = s.rxPhase)
    (taken : PayloadSame { s with decIdx := s.decIdx + 1 } { t with decIdx := t.decIdx + 1 }) :
    RxFresh (payloadNext s) (payloadNext t) := by
  unfold payloadNext
  rw [show t.decIdx + 1 = s.decIdx + 1 from taken.idx, show t.decCount = s.decCount from taken.count]
  split
  case isTrue last =>
    exact ⟨rfl, rfl, wf, wf', nofun, nofun,
      fun _ => ⟨taken.count, fun j hj => taken.slots j (by simp only [pendFrame_decCount] at hj ⊢; omega)⟩, nofun⟩
  case isFalse =>
    exact ⟨phase, pend, wf, wf', fun hi => absurd (ph.symm.trans hi) nofun,
      fun _ => { taken with count := rfl, idx := rfl },
      fun hp => absurd (idle.symm.trans hp) nofun, fun hp => absurd (idle.symm.trans hp) nofun⟩

theorem RxFresh.raiseRx {c : Cause} (f : RxFresh s t) : RxFresh (raiseRx c s) (raiseRx c t) :=
  ⟨rfl, rfl, f.wf, f.wf', nofun, nofun, nofun, fun _ => rfl⟩

theorem Effect.of_rxFresh (h : Effect p i s s') (hi : i.ofRx) (on : enabled i s) (f : RxFresh s t) :
    ∃ t', Effect p i t t' ∧ RxFresh s' t' := by
  have takes (hi : i.takesRxToken) : s.oPend = .none ∧ s.rxPhase ∈ rowPhases i :=
    rxTakesIn_iff.1 (rxTakesIn_rowPhases hi s ▸ on)
  cases i <;> simp only [Instr.ofRx, Bool.false_eq_true] at hi
  case seek1Byte b =>
    cases h
    exact ⟨_, rfl, rxFresh_of_idle rfl f.pend f.wf f.wf' (takes rfl).1 (by simp only; split <;> simp)
      (by simp only; split <;> simp)⟩
  case seek2Byte b =>
    cases h
    exact ⟨_, rfl, rxFresh_of_idle rfl f.pend f.wf f.wf' (takes rfl).1 (by simp only; split <;> simp)
      (by simp only; split <;> simp)⟩
  case cntLoByte b =>
    cases h
    have idle : s.oPend = .none := (takes rfl).1
    exact ⟨_, rfl, rfl, f.pend, f.wf, f.wf', fun _ => by simp, nofun, fun hp => absurd (idle.symm.trans hp) nofun,
      fun hp => absurd (idle.symm.trans hp) nofun⟩
  case cntHiByte b =>
    cases h
    obtain ⟨idle, ph⟩ := takes rfl
    have low := f.low (List.mem_singleton.1 ph)
    exact ⟨_, rfl, rxFresh_startPayload f.wf f.wf' idle f.pend (by simp only [low])⟩
  case payloadByte b =>
    obtain ⟨idle, ph⟩ := takes rfl
    have ph : s.rxPhase = .payload := List.mem_singleton.1 ph
    obtain ⟨count, idx, lo, slots⟩ := f.payload ph
    rcases h with ⟨even, rfl⟩ | ⟨odd, hc, rfl⟩
    · refine ⟨_, .inl ⟨idx ▸ even, rfl⟩, rxFresh_payloadNext f.wf f.wf' idle f.pend ph f.phase
        ⟨count, congrArg (· + 1) idx, fun _ => rfl, fun j hj => slots j ?_⟩⟩
      simp only at hj
      omega
    · refine ⟨_, .inr ⟨idx ▸ odd, idx ▸ hc, rfl⟩, rxFresh_payloadNext (Memory.write_wf f.wf _ _)
        (Memory.write_wf f.wf' _ _) idle f.pend ph f.phase ⟨count, congrArg (· + 1) idx, ?_, fun j hj => ?_⟩⟩
      · simp only
        omega
      · simp only [Memory.read_write f.wf, Memory.read_write f.wf', idx, lo odd] at hj ⊢
        split
        · rfl
        · exact slots j (by omega)
  case handoff =>
    obtain ⟨e, he, rfl⟩ := h
    exact ⟨_, ⟨e, (RxAlike.pendingEvent_eq (.inr f)).trans he, rfl⟩,
      { f with pend := rfl, payload := fun ph => { f.payload ph with }, frame := nofun, cause := nofun }⟩
  case rxReset => cases h; exact ⟨_, rfl, rxFresh_of_idle rfl rfl f.wf f.wf' rfl nofun nofun⟩
  case seekTimeout | seekEos | decTimeout | decEos => cases h; exact ⟨_, rfl, f.raiseRx⟩

theorem Effect.of_rxAlike (h : Effect p i s s') (hi : i.ofRx) (on : enabled i s) (a : RxAlike s t) :
    ∃ t', Effect p i t t' ∧ RxAlike s' t' := by
  rcases a with same | fresh
  · obtain ⟨t', effect, same'⟩ := h.of_rxSame hi same
    exact ⟨t', effect, .inl same'⟩
  · obtain ⟨t', effect, fresh'⟩ := h.of_rxFresh hi on fresh
    exact ⟨t', effect, .inr fresh'⟩

end Alike

end Sys2Proof.Machine

namespace Sys2Proof.Machine

section Inputs

variable {p : Config.Params} {i : Instr} {s t u : State}

/-! ## Only WIRE touches what the environment offers -/

theorem InputsSame.trans (h : InputsSame s t) (k : InputsSame t u) : InputsSame s u :=
  ⟨k.script.trans h.script, k.draws.trans h.draws⟩

theorem InputsSame.symm (h : InputsSame s t) : InputsSame t s := ⟨h.script.symm, h.draws.symm⟩

theorem inputsSame_emitNext (h : InputsSame s t) : InputsSame s (emitNext p t) := by
  rcases emitNext_cases p t with ⟨-, e⟩ | ⟨-, e⟩ <;> (rw [e]; exact h.trans ⟨rfl, rfl⟩)

theorem inputsSame_startPayload (h : InputsSame s t) : InputsSame s (startPayload t) := by
  rcases startPayload_cases t with ⟨-, e⟩ | ⟨-, e⟩ <;> (rw [e]; exact h.trans ⟨rfl, rfl⟩)

theorem inputsSame_payloadNext (h : InputsSame s t) : InputsSame s (payloadNext t) := by
  rcases payloadNext_cases t with ⟨-, e⟩ | ⟨-, e⟩ <;> (rw [e]; exact h.trans ⟨rfl, rfl⟩)

/-- An operation of either block leaves what is offered and the draw counter. -/
theorem Effect.inputsSame (h : Effect p i s t) (hi : i.ofEnc ∨ i.ofRx) : InputsSame s t := by
  cases i
  case wire => simp [Instr.ofEnc, Instr.ofRx] at hi
  case reservedRxKind3 => cases h
  case observe v => obtain ⟨-, rfl⟩ := h; exact ⟨rfl, rfl⟩
  case emit => obtain ⟨-, rfl⟩ := h; exact inputsSame_emitNext ⟨rfl, rfl⟩
  case cntHiByte b => cases h; exact inputsSame_startPayload ⟨rfl, rfl⟩
  case payloadByte b => rcases h with ⟨-, rfl⟩ | ⟨-, -, rfl⟩ <;> exact inputsSame_payloadNext ⟨rfl, rfl⟩
  case handoff => obtain ⟨e, -, rfl⟩ := h; exact ⟨rfl, rfl⟩
  all_goals cases h; exact ⟨rfl, rfl⟩

end Inputs

section Runs

variable {p : Config.Params} {i : Instr} {s s' t t' : State} {r : Fault} {x y : Result}

/-! ## Runs from states that nothing outside tells apart -/

/-- Nothing outside the blocks tells the two states apart, now or later. -/
structure Alike (p : Config.Params) (s t : State) : Prop where
  enc : EncAlike p s t
  rx : RxAlike s t
  inputs : InputsSame s t
  traces : TracesSame s t

/-- Two answers that go on alike, or stop for the same reason. -/
inductive AlikeAnswers (p : Config.Params) : Result → Result → Prop where
  | next {s t : State} (alike : Alike p s t) : AlikeAnswers p (.next s) (.next t)
  | fault (r : Fault) : AlikeAnswers p (.fault r) (.fault r)
  | refused (why : Refusal) : AlikeAnswers p (.refused why) (.refused why)

theorem Alike.enabled_eq (a : Alike p s t) : enabled i t = enabled i s := by
  cases i <;> simp only [enabled, a.enc.phase, a.rx.phase, a.rx.pend]

theorem Alike.missingSlot (a : Alike p s t) (on : enabled i s) (missing : MissingSlot p i s r) :
    MissingSlot p i t r := by
  cases i
  case observe v =>
    obtain ⟨hw, rfl⟩ := missing
    exact ⟨a.enc.wr ▸ hw, by rw [a.enc.wr]⟩
  case emit =>
    obtain ⟨hr, rfl⟩ := missing
    exact ⟨a.enc.rd ▸ hr, by rw [a.enc.rd]⟩
  case payloadByte b =>
    obtain ⟨odd, hc, rfl⟩ := missing
    have idx := (a.rx.payload (of_decide_eq_true (of_decide_eq_true on).2)).idx
    exact ⟨idx ▸ odd, idx ▸ hc, by rw [idx]⟩
  all_goals cases missing

/-- Both states add the same to the traces. -/
theorem Effect.tracesSame (h : Effect p i s s') (k : Effect p i t t') (on : enabled i s) (a : Alike p s t) :
    TracesSame s' t' where
  tx := by rw [k.txOut_eq, h.txOut_eq, a.traces.tx, a.enc.bytesPut_eq on]
  o := by rw [k.oOut_eq, h.oOut_eq, a.traces.o, a.rx.eventsDelivered_eq]

theorem Effect.of_alike (h : Effect p i s s') (on : enabled i s) (a : Alike p s t) :
    ∃ t', Effect p i t t' ∧ Alike p s' t' := by
  have inputs {t' : State} (k : Effect p i t t') (hi : i.ofEnc ∨ i.ofRx) : InputsSame s' t' :=
    (h.inputsSame hi).symm.trans (a.inputs.trans (k.inputsSame hi))
  have ofEnc (hi : i.ofEnc) : ∃ t', Effect p i t t' ∧ Alike p s' t' := by
    obtain ⟨t', k, enc⟩ := h.of_encAlike hi on a.enc
    exact ⟨t', k, enc, a.rx.of_rxSame (h.rxSame_of_ofEnc hi) (k.rxSame_of_ofEnc hi), inputs k (.inl hi),
      h.tracesSame k on a⟩
  have ofRx (hi : i.ofRx) : ∃ t', Effect p i t t' ∧ Alike p s' t' := by
    obtain ⟨t', k, rx⟩ := h.of_rxAlike hi on a.rx
    exact ⟨t', k, a.enc.of_encSame (h.encSame_of_ofRx hi) (k.encSame_of_ofRx hi), rx, inputs k (.inr hi),
      h.tracesSame k on a⟩
  cases i
  case wire samples =>
    obtain ⟨hl, rfl⟩ := h
    exact ⟨_, ⟨hl, rfl⟩, a.enc.of_encSame ⟨rfl, rfl, rfl, rfl⟩ ⟨rfl, rfl, rfl, rfl⟩,
      a.rx.of_rxSame ⟨rfl, rfl, rfl, rfl, rfl, rfl, rfl⟩ ⟨rfl, rfl, rfl, rfl, rfl, rfl, rfl⟩,
      ⟨by simp only [a.inputs.script], a.inputs.draws⟩, ⟨a.traces.tx, a.traces.o⟩⟩
  case observe | acqFault | emit | encReset => exact ofEnc rfl
  case reservedRxKind3 => cases h
  all_goals exact ofRx rfl

theorem Alike.execFor (a : Alike p s t) (i : Instr) : AlikeAnswers p (execFor p i s) (execFor p i t) := by
  by_cases on : enabled i s
  · have on' : enabled i t := a.enabled_eq.trans on
    rcases effect_or_missingSlot_or_refused (p := p) on with ⟨s', effect⟩ | ⟨r, missing⟩ | ⟨why, refused⟩
    · obtain ⟨t', effect', a'⟩ := effect.of_alike on a
      rw [execFor_of_effect on effect, execFor_of_effect on' effect']
      exact .next a'
    · rw [execFor_of_missingSlot on missing, execFor_of_missingSlot on' (a.missingSlot on missing)]
      exact .fault r
    · rw [refused s, refused t]
      exact .refused why
  · have off' : ¬ enabled i t := a.enabled_eq (i := i) ▸ on
    rw [execFor_of_not_enabled on, execFor_of_not_enabled off']
    exact .next a

theorem Alike.takeOfferFor (a : Alike p s t) (o : Offer) : AlikeAnswers p (takeOfferFor p o s) (takeOfferFor p o t) := by
  unfold Machine.takeOfferFor
  rw [a.rx.phase]
  split
  · exact a.execFor _
  · exact .refused _

theorem Alike.offerReady_eq (a : Alike p s t) (o : Offer) : offerReady t o = offerReady s o := by
  cases o <;> simp only [offerReady, sReady, txValid, rxReady, oValid, a.enc.phase, a.rx.pend]

theorem Alike.fetch_eq (a : Alike p s t) : fetch t = fetch s := by
  have same (l : List Offer) : firstReady t l = firstReady s l := by
    induction l with
    | nil => rfl
    | cons o rest ih => rw [firstReady, firstReady, a.offerReady_eq, ih]
  rw [fetch, fetch, a.inputs.script, same]

theorem Alike.advance (a : Alike p s t) (rest : List Offer) : Alike p (advance rest s) (advance rest t) where
  enc := a.enc.of_encSame ⟨rfl, rfl, rfl, rfl⟩ ⟨rfl, rfl, rfl, rfl⟩
  rx := a.rx.of_rxSame ⟨rfl, rfl, rfl, rfl, rfl, rfl, rfl⟩ ⟨rfl, rfl, rfl, rfl, rfl, rfl, rfl⟩
  inputs := ⟨rfl, congrArg (· + 1) a.inputs.draws⟩
  traces := ⟨a.traces.tx, a.traces.o⟩

theorem Alike.stepFor (a : Alike p s t) : AlikeAnswers p (stepFor p s) (stepFor p t) := by
  unfold Machine.stepFor
  rw [a.fetch_eq, a.inputs.script]
  split
  · exact (a.advance _).takeOfferFor _
  · exact .next (a.advance _)

theorem Alike.runFor (a : Alike p s t) (k : Nat) : AlikeAnswers p (runFor p k s) (runFor p k t) := by
  induction k generalizing s t with
  | zero => exact .next a
  | succ k ih =>
    have first : AlikeAnswers p ((coreFor p).step s) ((coreFor p).step t) := a.stepFor
    simp only [Machine.runFor, Host.Core.run]
    generalize (coreFor p).step s = x, (coreFor p).step t = y at first ⊢
    cases first with
    | next a' => exact ih a'
    | fault r => exact .fault r
    | refused why => exact .refused why

/-! ## What shows outside -/

theorem Alike.txData_eq (a : Alike p s t) (rst : Bool) : txData p rst t = txData p rst s := by
  have valid : txValid rst t = txValid rst s := by simp only [txValid, a.enc.phase]
  simp only [txData, valid, a.inputs.draws]
  split
  case isTrue puts => exact a.enc.emittedByte_eq (by simp_all [txValid])
  case isFalse => rfl

theorem Alike.oCount_eq (a : Alike p s t) : oCount t = oCount s := by
  simp only [oCount, a.rx.pend, a.inputs.draws]
  split
  case isTrue hp => exact (a.rx.frame hp).count
  case isFalse => rfl

theorem Alike.oCausePort_eq (a : Alike p s t) : oCausePort t = oCausePort s := by
  simp only [oCausePort, a.rx.pend, a.inputs.draws]
  split
  case isTrue hp => exact a.rx.cause hp
  case isFalse => rfl

theorem Alike.oRdata_eq (a : Alike p s t) (raddr : BitVec 16) : oRdata t raddr = oRdata s raddr := by
  by_cases hp : s.oPend = .frame
  · have frame := a.rx.frame hp
    simp only [oRdata, a.rx.pend, a.inputs.draws, frame.count]
    split
    case isTrue shown => exact frame.slots _ shown.2
    case isFalse => rfl
  · simp only [oRdata, a.rx.pend, a.inputs.draws, hp, false_and, if_false]

theorem Alike.portsSame (a : Alike Config.params s t) : PortsSame s t where
  sReady rst := by simp only [Machine.sReady, a.enc.phase]
  txValid rst := by simp only [Machine.txValid, a.enc.phase]
  txData := a.txData_eq
  encHalted := by simp only [Machine.encHalted, a.enc.phase]
  rxReady rst := by simp only [Machine.rxReady, a.rx.pend]
  oValid rst := by simp only [Machine.oValid, a.rx.pend]
  oKind := by simp only [Machine.oKind, a.rx.pend]
  oCount := a.oCount_eq
  oCause := a.oCausePort_eq
  oRdata := a.oRdata_eq

theorem AlikeAnswers.sameOutside (h : AlikeAnswers Config.params x y) : SameOutside x y := by
  cases h with
  | next a => exact ⟨a.traces, a.portsSame⟩
  | fault r => rfl
  | refused why => rfl

theorem Alike.run_sameOutside (a : Alike Config.params s t) (k : Nat) : SameOutside (run k s) (run k t) := by
  rw [defaultParametersGiveThisHardware k s, defaultParametersGiveThisHardware k t]
  exact (a.runFor k).sameOutside

end Runs

/-- Settles O49: after ENC_RESET no slot of the buffer has been written since, so none has to agree. -/
theorem encResetForgetsThePast : Obligations.EncResetForgetsThePast := by
  unfold Obligations.EncResetForgetsThePast
  intro s t s' t' k wf wf' rx inputs traces hs ht
  cases hs
  cases ht
  have alike : Alike Config.params { s with encPhase := .accum, encWr := 0, encRd := 0 }
      { t with encPhase := .accum, encWr := 0, encRd := 0 } :=
    { enc := .inr ⟨rfl, rfl, rfl, ⟨fun _ => ⟨Config.params.n_pos, rfl⟩, nofun, nofun⟩, wf, wf', nofun⟩
      rx := .inl { rx with }
      inputs := { inputs with }
      traces := { traces with } }
  exact alike.run_sameOutside k

/-- Settles O50: after RX_RESET nothing is owed and no frame is in progress, so no data register has to agree. -/
theorem rxResetForgetsThePast : Obligations.RxResetForgetsThePast := by
  unfold Obligations.RxResetForgetsThePast
  intro s t s' t' k wf wf' enc inputs traces hs ht
  cases hs
  cases ht
  have alike : Alike Config.params { s with rxPhase := .seek1, oPend := .none }
      { t with rxPhase := .seek1, oPend := .none } :=
    { enc := .inl { enc with }
      rx := .inr (rxFresh_of_idle rfl rfl wf wf' rfl nofun nofun)
      inputs := { inputs with }
      traces := { traces with } }
  exact alike.run_sameOutside k

end Sys2Proof.Machine

namespace Sys2Proof.Machine

section Outputs

variable {p : Config.Params} {i : Instr} {s : State}

/-! ## What an instruction puts out (R55, R99) -/

/-- The byte EMIT puts is the one `tx_data` shows. -/
theorem bytesPut_emit (ph : s.encPhase = .emit) : bytesPut p .emit s = [txData p false s] := by
  simp [bytesPut, txData, txValid, ph]

theorem eventsDelivered_of_ne_handoff (hi : i ≠ .handoff) : eventsDelivered i s = [] := by
  cases i
  case handoff => exact absurd rfl hi
  all_goals rfl

end Outputs

/-- Settles O40: what an instruction adds to each trace is empty, but for EMIT's byte and HANDOFF's event. -/
theorem outputsAreNeverRecalled : Obligations.OutputsAreNeverRecalled := by
  unfold Obligations.OutputsAreNeverRecalled
  intro i s t h
  rcases exec_next h with ⟨-, rfl⟩ | ⟨on, effect⟩
  · exact ⟨.inl rfl, .inl rfl⟩
  rw [effect.txOut_eq, effect.oOut_eq]
  constructor
  · by_cases hi : i = .emit
    · subst hi
      have ph : s.encPhase = .emit := of_decide_eq_true on
      exact .inr ⟨rfl, ph, by rw [bytesPut_emit ph]⟩
    · exact .inl (by rw [bytesPut_of_ne_emit hi, List.append_nil])
  · by_cases hi : i = .handoff
    · subst hi
      have pends : s.oPend ≠ .none := of_decide_eq_true on
      obtain ⟨e, he⟩ := Option.ne_none_iff_exists'.1 (mt pendingEvent_eq_none.1 pends)
      exact .inr ⟨rfl, pends, e, he, by simp [eventsDelivered, he]⟩
    · exact .inl (by rw [eventsDelivered_of_ne_handoff hi, List.append_nil])

/-- Settles O16: the frame cycle of the parametric machine at the default parameters. -/
theorem frameCycleEmitsTheAcceptedSamples : Obligations.FrameCycleEmitsTheAcceptedSamples := by
  unfold Obligations.FrameCycleEmitsTheAcceptedSamples
  intro s samples rest wf ph wr rd len script
  rw [defaultParametersGiveThisHardware]
  exact frameCycleForAnyParameters Config.params s samples rest wf ph wr rd len script

end Sys2Proof.Machine

namespace Sys2Proof.Machine

/-! ## The joined blocks from reset (R60) -/

theorem framesPut_reset (p : Config.Params) : FramesPut p [] [] State.reset := ⟨nofun, rfl, rfl⟩

theorem framesTaken_reset (p : Config.Params) : FramesTaken p [] [] State.reset := ⟨rfl, rfl, nofun⟩

/-- Settles O54: at reset no frame has been put or received. -/
theorem linkedResetMeetsTheInvariant : Obligations.LinkedResetMeetsTheInvariant := by
  unfold Obligations.LinkedResetMeetsTheInvariant
  intro p
  exact
    { machine := reset_inv p
      bytes := rfl
      eos := Nat.zero_le 1
      tied := fun _ => Linked.tied_iff.2 ⟨[], [], framesPut_reset p, framesTaken_reset p⟩ }

section EndToEnd

variable {p : Config.Params} {s : State} {c : Linked} {received : List (List Sample)} {accepted : List Sample}
  {taken : List Byte}

theorem Linked.Reached.inv (h : Linked.Reached p c) : Linked.Inv p c := by
  induction h with
  | reset => exact linkedResetMeetsTheInvariant p
  | step _ next ih => exact linkedStepKeepsTheInvariant p _ _ ih next

theorem oOut_prefix_eventsOwed (s : State) : s.oOut <+: eventsOwed s := List.prefix_append _ _

/-- The samples delivered are among those of the frames received, in order. -/
theorem FramesTaken.samples_prefix (h : FramesTaken p received taken s) :
    s.oOut.flatMap Event.samples <+: received.flatten.map toS16 :=
  h.delivered ▸ (oOut_prefix_eventsOwed s).flatMap Event.samples

/-- Of the frames put, those received come first among the samples accepted. -/
theorem FramesPut.samples_prefix {inTransit : List (List Sample)}
    (h : FramesPut p (received ++ inTransit) accepted s) : received.flatten <+: accepted := by
  rw [h.accepted, List.flatten_append, List.append_assoc]
  exact List.prefix_append _ _

end EndToEnd

/-- Settles O52: what is reached meets the invariant of the joined blocks, whose tie bounds the samples delivered by those
of the frames received, and these by the samples accepted. -/
theorem deliveredSamplesArePrefixOfAccepted : Obligations.DeliveredSamplesArePrefixOfAccepted := by
  unfold Obligations.DeliveredSamplesArePrefixOfAccepted
  intro p c reached undisturbed
  obtain ⟨received, inTransit, put, taken⟩ := Linked.tied_iff.1 (reached.inv.tied undisturbed)
  exact ⟨taken.samples_prefix.trans (put.samples_prefix.map toS16),
    fun e he => taken.events e ((oOut_prefix_eventsOwed _).subset he)⟩

end Sys2Proof.Machine

namespace Sys2Proof.Machine

section Eager

variable {s s' t e : State} {w : RxToken} {rest : List RxToken}

/-! ## Handing over at once and handing over later (R59, R80)

Where RX stands in eager hand-off of the same tokens is, in every state, where it would stand with its pending event handed
over. -/

/-- The state once the pending event, if there is one, is delivered (R137). -/
def handedOver (s : State) : State := { s with oOut := eventsOwed s, oPend := .none }

theorem handedOver_of_none (hp : s.oPend = .none) : handedOver s = s := by
  unfold handedOver
  rw [eventsOwed_of_none hp, ← hp]

theorem exec_handoff (s : State) : exec .handoff s = .next (handedOver s) := by
  rw [exec_eq_execFor]
  cases he : pendingEvent s with
  | none =>
    have hp := pendingEvent_eq_none.1 he
    rw [handedOver_of_none hp]
    exact execFor_of_not_enabled (by simp [enabled, hp])
  | some e =>
    have pends : s.oPend ≠ .none := fun hp => nomatch he.symm.trans (pendingEvent_eq_none.2 hp)
    have delivers : handedOver s = { emitEvent e s with oPend := .none } := by
      rw [handedOver, eventsOwed, he]
      rfl
    exact execFor_of_effect (by simp [enabled, pends]) ⟨e, he, delivers⟩

/-- Eager hand-off takes a token and hands over what it leaves pending. -/
theorem takeEagerly_cons (h : takeEagerly (w :: rest) s = .next e) :
    ∃ t, takeOffer (.rxtok w) s = .next t ∧ takeEagerly rest (handedOver t) = .next e := by
  unfold takeEagerly at h
  split at h
  case h_1 t took =>
    refine ⟨t, took, ?_⟩
    split at h
    case isTrue hp => rwa [handedOver_of_none hp]
    case isFalse => rwa [exec_handoff] at h
  all_goals cases h

theorem RxIdle.of_advance {items : List Offer} (h : RxIdle (handedOver s) t) :
    RxIdle (handedOver (advance items s)) t := ⟨{ h.same with }, h.events⟩

theorem RxIdle.handedOver (h : RxIdle s t) : RxIdle (handedOver s) (handedOver t) :=
  ⟨{ h.same with pend := rfl }, h.same.eventsOwed_eq h.events⟩

/-- A token that RX goes on from selects an operation of RX. -/
theorem takeOffer_rxtok_next (h : takeOffer (.rxtok w) s = .next t) :
    exec (decodeRx s.rxPhase w) s = .next t ∧ (decodeRx s.rxPhase w).takesRxToken := by
  refine ⟨h, decodeRx_takesRxToken (fun reserved => ?_) s.rxPhase⟩
  have selects : decodeRx s.rxPhase w = .reservedRxKind3 (rxData w) := by simp [decodeRx, reserved]
  have took : exec (decodeRx s.rxPhase w) s = .next t := h
  rw [selects] at took
  cases took

/-- What a token does to RX and its events is the same whatever else the state holds (R3, R20). -/
theorem takeOffer_rxtok_of_rxIdle (same : RxIdle s s') (h : takeOffer (.rxtok w) s = .next t) :
    ∃ t', takeOffer (.rxtok w) s' = .next t' ∧ RxIdle t t' := by
  obtain ⟨took, takes⟩ := takeOffer_rxtok_next h
  obtain ⟨t', events, took', rx, -, added, added', -⟩ :=
    (blocksDoNotInfluenceEachOther _ s s' t took).2 (ofRx_of_takesRxToken takes) same.same
  rw [← same.same.phase] at took'
  exact ⟨t', took', rx, by rw [added', added, same.events]⟩

theorem takeOffer_rxtok_script (h : takeOffer (.rxtok w) s = .next t) : t.script = s.script := by
  obtain ⟨took, takes⟩ := takeOffer_rxtok_next h
  rcases exec_next took with ⟨-, rfl⟩ | ⟨-, effect⟩
  · rfl
  · exact (effect.inputsSame (.inr (ofRx_of_takesRxToken takes))).script

theorem takeOffer_rxtok_oOut (h : takeOffer (.rxtok w) s = .next t) : t.oOut = s.oOut := by
  obtain ⟨took, takes⟩ := takeOffer_rxtok_next h
  exact execFor_oOut (exec_eq_execFor _ s ▸ took) (eventsDelivered_of_takesRxToken takes)

/-- Eager hand-off recalls no event. -/
theorem takeEagerly_oOut_prefix {ws : List RxToken} (h : takeEagerly ws s = .next e) : s.oOut <+: e.oOut := by
  induction ws generalizing s with
  | nil => cases h; exact List.prefix_rfl
  | cons w rest ih =>
    obtain ⟨t, took, later⟩ := takeEagerly_cons h
    rw [← takeOffer_rxtok_oOut took]
    exact (oOut_prefix_eventsOwed t).trans (ih later)

end Eager

section Timing

variable {s t e : State} {l waiting later : List Offer} {o : Offer} {w : RxToken}

/-! ## Any interleaving of tokens and hand-overs -/

/-- The items are tokens on `rx` and hand-overs. -/
def OnlyRxItems (l : List Offer) : Prop := ∀ o ∈ l, o = .oReady ∨ ∃ w, o = .rxtok w

/-- The tokens among the items offered. -/
def tokensOffered (l : List Offer) : List RxToken := l.filterMap Offer.rxToken?

theorem OnlyRxItems.without (h : OnlyRxItems (waiting ++ o :: later)) : OnlyRxItems (waiting ++ later) :=
  fun x hx => h x (by simp only [List.mem_append, List.mem_cons] at hx ⊢; tauto)

theorem tokensOffered_without_oReady :
    tokensOffered (waiting ++ .oReady :: later) = tokensOffered (waiting ++ later) := by
  simp [tokensOffered, List.filterMap_cons, Offer.rxToken?]

/-- While RX takes tokens, the first item it takes is the first token: only hand-overs wait before it. -/
theorem tokensOffered_of_first_token (h : OnlyRxItems (waiting ++ .rxtok w :: later))
    (ready : offerReady s (.rxtok w)) (closed : ∀ x ∈ waiting, ¬ offerReady s x) :
    tokensOffered (waiting ++ .rxtok w :: later) = w :: tokensOffered (waiting ++ later) := by
  have none_waits : waiting.filterMap Offer.rxToken? = [] := by
    refine List.filterMap_eq_nil_iff.2 fun x hx => ?_
    rcases h x (List.mem_append_left _ hx) with rfl | ⟨v, rfl⟩
    · rfl
    · exact absurd ready (closed (.rxtok v) hx)
  simp [tokensOffered, none_waits, Offer.rxToken?]

/-- Eager hand-off of the tokens still offered, from where RX would stand with its pending event handed over, ends in `e`;
and nothing but tokens and hand-overs is offered. -/
structure EndsEagerly (e s : State) : Prop where
  items : OnlyRxItems s.script
  eager : ∃ u, RxIdle (handedOver s) u ∧ takeEagerly (tokensOffered s.script) u = .next e

theorem endsEagerly_handedOver {u : State} (items : OnlyRxItems l) (same : RxIdle (handedOver s) u)
    (eager : takeEagerly (tokensOffered l) u = .next e) : EndsEagerly e (handedOver (advance l s)) := by
  refine ⟨items, u, ?_, eager⟩
  rw [handedOver_of_none (s := handedOver (advance l s)) rfl]
  exact same.of_advance

/-- With nothing pending eager hand-off stands where RX does, takes the same token, and hands over at once what RX then
owes. -/
theorem endsEagerly_of_token {u : State} (items : OnlyRxItems l) (idle : s.oPend = .none)
    (took : takeOffer (.rxtok w) (advance l s) = .next t) (same : RxIdle (handedOver s) u)
    (eager : takeEagerly (w :: tokensOffered l) u = .next e) : EndsEagerly e t := by
  have before : RxIdle (handedOver (advance l s)) u := same.of_advance
  rw [handedOver_of_none (s := advance l s) idle] at before
  obtain ⟨v, took', after⟩ := takeOffer_rxtok_of_rxIdle before took
  obtain ⟨v', tookEagerly, rest⟩ := takeEagerly_cons eager
  cases took'.symm.trans tookEagerly
  have left : t.script = l := takeOffer_rxtok_script took
  exact ⟨left ▸ items, handedOver v, after.handedOver, left ▸ rest⟩

theorem EndsEagerly.step (h : EndsEagerly e s) (hs : step s = .next t) : EndsEagerly e t := by
  obtain ⟨items, u, same, eager⟩ := h
  rcases step_next hs with ⟨-, rfl⟩ | ⟨o, rest, i, fetched, decoded, took⟩
  · exact ⟨items, u, same.of_advance, eager⟩
  obtain ⟨ready, waiting, later, script, rfl, closed⟩ := firstReady_some fetched
  rw [script] at items eager
  rcases items o (by simp) with rfl | ⟨w, rfl⟩
  case inl =>
    cases decoded
    cases (exec_handoff _).symm.trans took
    rw [tokensOffered_without_oReady] at eager
    exact endsEagerly_handedOver items.without same eager
  case inr =>
    cases decoded
    have idle : s.oPend = .none := by simpa [offerReady, rxReady] using ready
    rw [tokensOffered_of_first_token items ready closed] at eager
    exact endsEagerly_of_token items.without idle took same eager

theorem EndsEagerly.run {k : Nat} (h : EndsEagerly e s) (hs : run k s = .next t) : EndsEagerly e t := by
  rw [defaultParametersGiveThisHardware] at hs
  induction k generalizing s with
  | zero => cases hs; exact h
  | succ k ih =>
    obtain ⟨u, first, later⟩ := runFor_succ_next hs
    exact ih (h.step ((step_eq_stepFor s).trans first)) later

end Timing

/-- Settles O51: every step keeps what eager hand-off of the tokens still offered ends in. -/
theorem eventsDoNotDependOnHandoverTiming : Obligations.EventsDoNotDependOnHandoverTiming := by
  unfold Obligations.EventsDoNotDependOnHandoverTiming
  intro s e t script k idle items eager ran
  have start : EndsEagerly e { s with script := script } := by
    refine ⟨items, s, ?_, eager⟩
    rw [handedOver_of_none (show ({ s with script := script } : State).oPend = .none from idle)]
    exact ⟨⟨rfl, rfl, rfl, rfl, rfl, rfl, rfl⟩, rfl⟩
  obtain ⟨-, u, same, rest⟩ := start.run ran
  have owed : u.oOut = eventsOwed t := same.events
  refine ⟨(oOut_prefix_eventsOwed t).trans (owed ▸ takeEagerly_oOut_prefix rest), fun none_left idle' => ?_⟩
  rw [tokensOffered, none_left] at rest
  cases rest
  rw [owed, eventsOwed_of_none idle']

end Sys2Proof.Machine

namespace Sys2Proof.Machine

section Codec

variable {p : Config.Params} {ph : RxPhase} {s : State} {i : Instr} {o : Offer}

/-! ## A frame as its bytes (R71, R82) -/

theorem payloadBytes_decodePatterns {bytes : List Byte} {k : Nat} (hk : bytes.length = 2 * k) :
    payloadBytes (decodePatterns bytes) = bytes := by
  induction k generalizing bytes with
  | zero => rw [List.eq_nil_of_length_eq_zero hk]; rfl
  | succ k ih =>
    match bytes, hk with
    | lo :: hi :: rest, hk =>
      have rest_even : rest.length = 2 * k := by simp only [List.length_cons] at hk; omega
      simp [decodePatterns, payloadBytes, ih rest_even]

theorem length_decodePatterns {bytes : List Byte} {k : Nat} (hk : bytes.length = 2 * k) :
    (decodePatterns bytes).length = k := by
  have lengths := congrArg List.length (payloadBytes_decodePatterns hk)
  rw [length_payloadBytes] at lengths
  omega

theorem decodeFrame_encodeFrame {samples : List Sample} (hl : samples.length ≤ 65535) :
    decodeFrame p (encodeFrame p samples) = .ok samples := by
  have count : (BitVec.ofNat 16 samples.length).toNat = samples.length :=
    Nat.mod_eq_of_lt (Nat.lt_succ_of_le hl)
  simp [decodeFrame, encodeFrame, count]

/-- Bytes that are a frame are the frame of the samples read from them, of which there are at most 65535. -/
theorem encodeFrame_of_decodeFrame {bytes : List Byte} {samples : List Sample}
    (h : decodeFrame p bytes = .ok samples) : encodeFrame p samples = bytes ∧ samples.length ≤ 65535 := by
  unfold decodeFrame at h
  split at h
  · rename_i low high payload
    split at h
    · obtain ⟨first, second⟩ := ‹_ ∧ _›
      split at h
      · rename_i hk
        cases h
        have count := (word16 high low).isLt
        rw [encodeFrame, length_decodePatterns hk, payloadBytes_decodePatterns hk, BitVec.ofNat_toNat,
          BitVec.setWidth_eq, lowByte_word16, highByte_word16, first, second]
        exact ⟨rfl, by omega⟩
      · cases h
    · cases h
  · cases h

theorem decodeFor_frame_eq_ok {bytes : List Byte} (h : decodeFor p ph (.frame bytes) = .ok i) :
    ∃ samples, decodeFrame p bytes = .ok samples ∧ i = .wire samples := by
  cases hf : decodeFrame p bytes with
  | error why => rw [decodeFor, hf] at h; cases h
  | ok samples => rw [decodeFor, hf] at h; cases h; exact ⟨_, rfl, rfl⟩

/-! ## Tokens by their kind (R75, R76) -/

theorem sToken_cases (w : SToken) : (∃ v, w = mkSToken 0 v) ∨ ∃ x, w = mkSToken 1 x := by
  have kinds : ∀ k : BitVec 1, k = 0 ∨ k = 1 := by decide
  rw [← mkSToken_fields w]
  rcases kinds (sKind w) with h | h <;> rw [h]
  · exact .inl ⟨_, rfl⟩
  · exact .inr ⟨_, rfl⟩

theorem rxToken_cases (w : RxToken) :
    (∃ b, w = mkRxToken 0 b) ∨ (∃ x, w = mkRxToken 1 x) ∨ (∃ x, w = mkRxToken 2 x) ∨ ∃ x, w = mkRxToken 3 x := by
  have kinds : ∀ k : BitVec 2, k = 0 ∨ k = 1 ∨ k = 2 ∨ k = 3 := by decide
  rw [← mkRxToken_fields w]
  rcases kinds (rxKind w) with h | h | h | h <;> rw [h]
  · exact .inl ⟨_, rfl⟩
  · exact .inr (.inl ⟨_, rfl⟩)
  · exact .inr (.inr (.inl ⟨_, rfl⟩))
  · exact .inr (.inr (.inr ⟨_, rfl⟩))

theorem decodeS_sample (v : Sample) : decodeS (mkSToken 0 v) = .observe v := by simp [decodeS]

theorem decodeS_acqFault (x : BitVec 16) : decodeS (mkSToken 1 x) = .acqFault x := by simp [decodeS]

theorem decodeRx_byte (ph : RxPhase) (b : Byte) : decodeRx ph (mkRxToken 0 b) = decodeByte ph b := by
  simp [decodeRx]

theorem decodeRx_timeout (ph : RxPhase) (x : Byte) :
    decodeRx ph (mkRxToken 1 x) = if ph.seeking then .seekTimeout x else .decTimeout x := by simp [decodeRx]

theorem decodeRx_eos (ph : RxPhase) (x : Byte) :
    decodeRx ph (mkRxToken 2 x) = if ph.seeking then .seekEos x else .decEos x := by simp [decodeRx]

theorem decodeRx_reserved (ph : RxPhase) (x : Byte) : decodeRx ph (mkRxToken 3 x) = .reservedRxKind3 x := by
  simp [decodeRx]

/-! ## The decoder and the encoder are inverse to each other (R78) -/

theorem decodeFor_encodeFor (hw : i.wellFormed) (hs : i.selectedIn ph) : decodeFor p ph (encodeFor p i) = .ok i := by
  cases i
  case wire samples =>
    have hl : samples.length ≤ 65535 := of_decide_eq_true hw
    simp [encodeFor, decodeFor, decodeFrame_encodeFrame hl, Except.map]
  case observe v => exact congrArg Except.ok (decodeS_sample v)
  case acqFault x => exact congrArg Except.ok (decodeS_acqFault x)
  case emit | encReset | handoff | rxReset => rfl
  case seek1Byte b | seek2Byte b | cntLoByte b | cntHiByte b | payloadByte b =>
    obtain rfl := of_decide_eq_true hs
    exact congrArg Except.ok (decodeRx_byte _ b)
  case seekTimeout x => exact congrArg Except.ok ((decodeRx_timeout ph x).trans (if_pos hs))
  case seekEos x => exact congrArg Except.ok ((decodeRx_eos ph x).trans (if_pos hs))
  case decTimeout x =>
    have decodes : ¬ ph.seeking := by simpa [Instr.selectedIn] using hs
    exact congrArg Except.ok ((decodeRx_timeout ph x).trans (if_neg decodes))
  case decEos x =>
    have decodes : ¬ ph.seeking := by simpa [Instr.selectedIn] using hs
    exact congrArg Except.ok ((decodeRx_eos ph x).trans (if_neg decodes))
  case reservedRxKind3 x => exact congrArg Except.ok (decodeRx_reserved ph x)

theorem encodeFor_decodeS (w : SToken) : encodeFor p (decodeS w) = .stok w ∧ (decodeS w).wellFormed
    ∧ (decodeS w).selectedIn ph := by
  rcases sToken_cases w with ⟨v, rfl⟩ | ⟨x, rfl⟩
  · rw [decodeS_sample]; exact ⟨rfl, rfl, rfl⟩
  · rw [decodeS_acqFault]; exact ⟨rfl, rfl, rfl⟩

theorem encodeFor_decodeRx (w : RxToken) : encodeFor p (decodeRx ph w) = .rxtok w ∧ (decodeRx ph w).wellFormed
    ∧ (decodeRx ph w).selectedIn ph := by
  rcases rxToken_cases w with ⟨b, rfl⟩ | ⟨x, rfl⟩ | ⟨x, rfl⟩ | ⟨x, rfl⟩
  · rw [decodeRx_byte]; cases ph <;> exact ⟨rfl, rfl, rfl⟩
  · rw [decodeRx_timeout]; cases ph <;> exact ⟨rfl, rfl, rfl⟩
  · rw [decodeRx_eos]; cases ph <;> exact ⟨rfl, rfl, rfl⟩
  · rw [decodeRx_reserved]; exact ⟨rfl, rfl, rfl⟩

theorem encodeFor_of_decodeFor (h : decodeFor p ph o = .ok i) :
    encodeFor p i = o ∧ i.wellFormed ∧ i.selectedIn ph := by
  cases o
  case stok w => cases h; exact encodeFor_decodeS w
  case rxtok w => cases h; exact encodeFor_decodeRx w
  case frame bytes =>
    obtain ⟨samples, hf, rfl⟩ := decodeFor_frame_eq_ok h
    obtain ⟨frame, hl⟩ := encodeFrame_of_decodeFrame hf
    exact ⟨congrArg Offer.frame frame, decide_eq_true hl, rfl⟩
  case txReady | oReady | encRst | rxRst => cases h; exact ⟨rfl, rfl, rfl⟩

/-! ## The enabled operation of a token (R78) -/

theorem enabled_of_takesRxToken (hi : i.takesRxToken) :
    enabled i s = decide (s.oPend = .none ∧ i.selectedIn s.rxPhase) := by
  cases i <;> cases hi <;> rfl

/-- An operation is enabled only in a phase that its row lists. -/
theorem selectedIn_of_enabled (on : enabled i s) : i.selectedIn s.rxPhase := by
  by_cases hi : i.takesRxToken
  · rw [enabled_of_takesRxToken hi] at on
    exact (of_decide_eq_true on).2
  · cases i
    case wire | observe | acqFault | emit | encReset | handoff | rxReset | reservedRxKind3 => rfl
    all_goals exact absurd rfl hi

/-- Only a frame's encoding can fail to be well-formed. -/
theorem wellFormed_of_ne_frame (h : ∀ bytes, encodeFor p i ≠ .frame bytes) : i.wellFormed := by
  cases i
  case wire => exact absurd rfl (h _)
  all_goals rfl

/-- An enabled operation is the one its word decodes to in RX's phase, so no other enabled one has that word. -/
theorem decodeFor_of_enabled (word : encodeFor p i = o) (single : ∀ bytes, o ≠ .frame bytes) (on : enabled i s) :
    decodeFor p s.rxPhase o = .ok i := by
  subst word
  exact decodeFor_encodeFor (wellFormed_of_ne_frame single) (selectedIn_of_enabled on)

theorem enabled_decodeS (ph : s.encPhase = .accum) (w : SToken) : enabled (decodeS w) s := by
  rcases sToken_cases w with ⟨v, rfl⟩ | ⟨x, rfl⟩
  · rw [decodeS_sample]; exact decide_eq_true ph
  · rw [decodeS_acqFault]; exact decide_eq_true ph

theorem enabled_decodeRx (idle : s.oPend = .none) {w : RxToken} (hw : rxKind w ≠ 3) :
    enabled (decodeRx s.rxPhase w) s := by
  rw [enabled_of_takesRxToken (decodeRx_takesRxToken hw _)]
  obtain ⟨-, -, selected⟩ := encodeFor_decodeRx (p := Config.params) (ph := s.rxPhase) w
  exact decide_eq_true ⟨idle, selected⟩

end Codec

/-- Settles O1: at the default parameters, the decoder reads back what the encoder wrote. -/
theorem decodeOfEncodeIsTheInstruction : Obligations.DecodeOfEncodeIsTheInstruction := by
  unfold Obligations.DecodeOfEncodeIsTheInstruction
  intro i ph hw hs
  exact decodeFor_encodeFor hw hs

/-- Settles O2: by cases on the channel of the offer, and on the kind of a token. -/
theorem encodeOfDecodeIsTheOffer : Obligations.EncodeOfDecodeIsTheOffer := by
  unfold Obligations.EncodeOfDecodeIsTheOffer
  intro ph o i h
  exact encodeFor_of_decodeFor h

/-- Settles O4: what the token decodes to is enabled, and an enabled operation with that word is what it decodes to. -/
theorem everyTokenSelectsOneEnabledOperation : Obligations.EveryTokenSelectsOneEnabledOperation := by
  unfold Obligations.EveryTokenSelectsOneEnabledOperation
  intro s
  refine ⟨fun accum w => ⟨_, rfl, enabled_decodeS accum w, fun j word on => ?_⟩,
    fun idle w hw => ⟨_, rfl, enabled_decodeRx idle hw, fun j word on => ?_⟩⟩
  all_goals exact (Except.ok.inj (decodeFor_of_enabled word nofun on)).symm

/-- Settles O5: the general statement over any parameters, at the default ones. -/
theorem operationNotEnabledChangesNothing : Obligations.OperationNotEnabledChangesNothing := by
  unfold Obligations.OperationNotEnabledChangesNothing
  intro i s off
  rw [exec_eq_execFor]
  exact execFor_of_not_enabled off

/-- Settles O3: each word is read by evaluating the decoder. -/
theorem wordsOfTheFormatsDecode : Obligations.WordsOfTheFormatsDecode := by
  unfold Obligations.WordsOfTheFormatsDecode
  decide

/-- Settles O8: a word of kind 3 is the reserved row in every phase, whose meaning is the refusal. -/
theorem reservedKindIsRefused : Obligations.ReservedKindIsRefused := by
  unfold Obligations.ReservedKindIsRefused
  intro ph w s hw
  refine ⟨congrArg Except.ok ?_, rfl⟩
  rw [← mkRxToken_fields w, hw, decodeRx_reserved, rxData_mkRxToken]

end Sys2Proof.Machine

namespace Sys2Proof.Machine

section Phases

variable {p : Config.Params} {s : State}

/-! ## The phase after an operation (R78) -/

theorem emitNext_encPhase (ph : s.encPhase = .emit) (hr : s.encRd < p.frameLen) :
    (emitNext p s).encPhase = if s.encRd + 1 < p.frameLen then .emit else .accum := by
  rcases emitNext_cases p s with ⟨last, e⟩ | ⟨more, e⟩ <;> rw [e]
  · rw [if_neg (by omega)]
  · rw [if_pos (by omega)]; exact ph

theorem startPayload_rxPhase (s : State) :
    (startPayload s).rxPhase = if s.decCount ≠ 0 then .payload else .seek1 := by
  rcases startPayload_cases s with ⟨zero, e⟩ | ⟨count, e⟩ <;> rw [e]
  · rw [if_neg (not_not.2 zero)]; rfl
  · rw [if_pos count]

theorem payloadNext_rxPhase (ph : s.rxPhase = .payload) (hi : s.decIdx < 2 * s.decCount.toNat) :
    (payloadNext s).rxPhase = if s.decIdx < 2 * s.decCount.toNat - 1 then .payload else .seek1 := by
  rcases payloadNext_cases s with ⟨last, e⟩ | ⟨more, e⟩ <;> rw [e]
  · rw [if_neg (by omega)]; rfl
  · rw [if_pos (by omega)]; exact ph

end Phases

/-- Settles O6: by what each operation does to the phase of its own block; it leaves the other block as it was. -/
theorem phaseAfterEachOperation : Obligations.PhaseAfterEachOperation := by
  unfold Obligations.PhaseAfterEachOperation
  intro i s t inv on h
  rcases exec_next h with ⟨off, -⟩ | ⟨-, effect⟩
  · exact absurd on off
  have enc (hi : i.ofRx) : t.encPhase = s.encPhase := (effect.encSame_of_ofRx hi).phase
  have rx (hi : i.ofEnc) : t.rxPhase = s.rxPhase := (effect.rxSame_of_ofEnc hi).phase
  cases i
  case wire => obtain ⟨-, rfl⟩ := effect; exact ⟨rfl, rfl⟩
  case observe v =>
    refine ⟨?_, rx rfl⟩
    obtain ⟨hw, rfl⟩ := effect
    have slot : s.encWr < 512 := hw
    by_cases full : s.encWr + 1 = 512
    · exact (if_pos full).trans (if_neg (by omega)).symm
    · exact (if_neg full).trans (if_pos (by omega)).symm
  case acqFault => exact ⟨by cases effect; rfl, rx rfl⟩
  case emit =>
    refine ⟨?_, rx rfl⟩
    obtain ⟨hr, rfl⟩ := effect
    exact (emitNext_encPhase (s := txPut _ s) (of_decide_eq_true on) hr).trans (if_congr Nat.succ_lt_succ_iff rfl rfl)
  case encReset => exact ⟨by cases effect; rfl, rx rfl⟩
  case cntHiByte b => exact ⟨enc rfl, by cases effect; exact startPayload_rxPhase _⟩
  case payloadByte b =>
    refine ⟨enc rfl, ?_⟩
    have ph : s.rxPhase = .payload := of_decide_eq_true (selectedIn_of_enabled on)
    have hidx := (inv.payload ph).2
    rcases effect with ⟨-, rfl⟩ | ⟨-, -, rfl⟩
    · exact payloadNext_rxPhase (s := { s with decLo := b }) ph hidx
    · exact payloadNext_rxPhase (s := { s with decBuf := _ }) ph hidx
  case handoff => exact ⟨enc rfl, by obtain ⟨e, -, rfl⟩ := effect; rfl⟩
  case reservedRxKind3 => cases effect
  all_goals exact ⟨enc rfl, by cases effect; rfl⟩

end Sys2Proof.Machine

namespace Sys2Proof.Machine

/-! ## The frame format (R9, R71, R81, R82) -/

/-- Settles O12: the emitted bytes are those of the frame of the buffer's slots. -/
theorem emittedByteIsTheFrameByte : Obligations.EmittedByteIsTheFrameByte := by
  unfold Obligations.EmittedByteIsTheFrameByte
  intro p buf i hi
  exact encodeFrame_getElem?_firstSlots hi

/-- The signed reading of a signed 16-bit integer's pattern is the integer (R9). -/
theorem toS16_toU16 {v : Int} (hv : -32768 ≤ v ∧ v ≤ 32767) : toS16 (toU16 v) = v := by
  obtain ⟨low, high⟩ := hv
  rw [toS16, toU16, BitVec.toNat_ofNat]
  by_cases sign : 0 ≤ v
  · rw [if_pos sign, if_pos (by omega)]; omega
  · rw [if_neg sign, if_neg (by omega)]; omega

/-- Settles O36: the payload carries the patterns of the samples, and each pattern reads as its sample. -/
theorem formatRoundTrip : Obligations.FormatRoundTrip := by
  unfold Obligations.FormatRoundTrip
  intro p samples range
  have payload : (encodeFrame p (samples.map toU16)).drop 4 = payloadBytes (samples.map toU16) := rfl
  rw [payload, decodePayload, decodePatterns_payloadBytes, List.map_map]
  calc samples.map (toS16 ∘ toU16)
      = samples.map id := List.map_congr_left fun v hv => toS16_toU16 (range v hv)
    _ = samples := List.map_id samples

/-- Settles O7: WIRE offers the BYTE items of the encoded frame. -/
theorem wireExpandsToItsBytes : Obligations.WireExpandsToItsBytes := by
  unfold Obligations.WireExpandsToItsBytes
  intro samples s hl
  exact ⟨encodeFrame Config.params samples, length_encodeFrame _ _, rfl, if_pos hl⟩

end Sys2Proof.Machine

namespace Sys2Proof.Machine

section Halt

variable {p : Config.Params} {i : Instr} {s t : State}

/-! ## ENC in HALT (R95) -/

/-- In HALT no operation of ENC but its reset is enabled. -/
theorem not_enabled_of_halt (halted : s.encPhase = .halt) (hi : i.ofEnc) (hr : i ≠ .encReset) : ¬ enabled i s := by
  cases i
  case observe | acqFault | emit => simp [enabled, halted]
  case encReset => exact absurd rfl hr
  all_goals cases hi

/-- What is no operation of ENC writes no register of ENC. -/
theorem Effect.encSame_of_not_ofEnc (h : Effect p i s t) (hi : ¬ i.ofEnc) : EncSame s t := by
  cases i
  case wire samples => obtain ⟨-, rfl⟩ := h; exact ⟨rfl, rfl, rfl, rfl⟩
  case reservedRxKind3 => cases h
  case observe | acqFault | emit | encReset => exact absurd rfl hi
  all_goals exact h.encSame_of_ofRx rfl

end Halt

/-- Settles O11: an instruction that has an effect in HALT is ENC_RESET or no operation of ENC. -/
theorem onlyResetLeavesHalt : Obligations.OnlyResetLeavesHalt := by
  unfold Obligations.OnlyResetLeavesHalt
  intro s halted
  refine ⟨by simp [sReady, halted], by simp [txValid, halted], by simp [encHalted, halted], fun i t hr h => ?_⟩
  rcases exec_next h with ⟨-, rfl⟩ | ⟨on, effect⟩
  · exact ⟨.refl _, rfl⟩
  · have other : ¬ i.ofEnc := fun hi => not_enabled_of_halt halted hi hr on
    have silent : bytesPut Config.params i s = [] := bytesPut_of_ne_emit (by rintro rfl; exact other rfl)
    exact ⟨effect.encSame_of_not_ofEnc other, by rw [effect.txOut_eq, silent, List.append_nil]⟩

section Transfers

variable {p : Config.Params} {s : State} {rest : List Offer}

/-! ## The bytes of a frame on `tx`, from offset 0 (R97, R184) -/

/-- ENC once the first `k` bytes of the frame in its buffer have been put, with `rest` still offered. -/
def withFirstBytes (p : Config.Params) (k : Nat) (rest : List Offer) (s : State) : State :=
  { s with
    encRd := k
    txOut := s.txOut ++ (encodeFrame p (s.encBuf.firstSlots p.n)).take k
    script := rest
    draws := s.draws + k }

theorem withFirstBytes_zero (hs : s.script = rest) (rd : s.encRd = 0) : withFirstBytes p 0 rest s = s := by
  cases s
  cases hs
  cases rd
  simp [withFirstBytes]

/-- The byte of a transfer after the first `k` bytes is the next one of the frame. -/
theorem withByte_withFirstBytes {k : Nat} {waiting : List Offer} (within : k < p.frameLen) :
    { withByte p (advance rest (withFirstBytes p k waiting s)) with encRd := k + 1 }
      = withFirstBytes p (k + 1) rest s := by
  simp only [withFirstBytes, take_succ_encodeFrame within, ← List.append_assoc]
  rfl

/-- A transfer that is not the frame's last puts one byte more of it. -/
theorem stepFor_withFirstBytes {k : Nat} (ph : s.encPhase = .emit) (within : k + 1 < p.frameLen) :
    stepFor p (withFirstBytes p k (.txReady :: rest) s) = .next (withFirstBytes p (k + 1) rest s) :=
  (stepFor_inner_transfer (s := withFirstBytes p k (.txReady :: rest) s) rfl ph within).trans
    (congrArg Host.Outcome.next (withByte_withFirstBytes (Nat.lt_of_succ_lt within)))

/-- Fewer transfers than the frame has bytes put that many of its first bytes; ENC stays in EMIT. -/
theorem run_first_transfers {k : Nat} (hs : s.script = List.replicate k .txReady ++ rest) (ph : s.encPhase = .emit)
    (rd : s.encRd = 0) (within : k < p.frameLen) : runFor p k s = .next (withFirstBytes p k rest s) := by
  induction k generalizing rest with
  | zero => exact congrArg Host.Outcome.next (withFirstBytes_zero hs rd).symm
  | succ k ih =>
    rw [List.replicate_succ', List.append_assoc] at hs
    exact (runFor_add (ih hs (by omega))).trans (runFor_succ_of_next (stepFor_withFirstBytes ph within))

/-- ENC back in ACCUM with an empty buffer, once the whole frame that was in it has been put. -/
def withWholeFrame (p : Config.Params) (rest : List Offer) (s : State) : State :=
  { withFirstBytes p p.frameLen rest s with encPhase := .accum, encWr := 0, encRd := 0 }

theorem withWholeFrame_txOut (p : Config.Params) (rest : List Offer) (s : State) :
    (withWholeFrame p rest s).txOut = s.txOut ++ encodeFrame p (s.encBuf.firstSlots p.n) :=
  congrArg (s.txOut ++ ·) (List.take_of_length_le (length_encodeFrame_n (by simp)).le)

/-- The frame's last transfer completes it and returns ENC to ACCUM. -/
theorem stepFor_withWholeFrame {k : Nat} (ph : s.encPhase = .emit) (last : k + 1 = p.frameLen) :
    stepFor p (withFirstBytes p k (.txReady :: rest) s) = .next (withWholeFrame p rest s) := by
  rw [stepFor_last_transfer (s := withFirstBytes p k (.txReady :: rest) s) rfl ph last, withWholeFrame, ← last,
    ← withByte_withFirstBytes (by omega)]

/-- As many transfers as the frame has bytes put the whole of it. -/
theorem run_whole_frame (hs : s.script = List.replicate p.frameLen .txReady ++ rest) (ph : s.encPhase = .emit)
    (rd : s.encRd = 0) : runFor p p.frameLen s = .next (withWholeFrame p rest s) := by
  obtain ⟨k, whole⟩ : ∃ k, p.frameLen = k + 1 := ⟨3 + 2 * p.n, by simp only [Config.Params.frameLen]; omega⟩
  rw [whole, List.replicate_succ', List.append_assoc] at hs
  rw [whole]
  exact (runFor_add (run_first_transfers hs ph rd (by omega))).trans
    (runFor_succ_of_next (stepFor_withWholeFrame ph whole.symm))

/-- A reset item is taken in any phase (R181). -/
theorem stepFor_encReset (hs : s.script = .encRst :: rest) :
    stepFor p s = .next { advance rest s with encPhase := .accum, encWr := 0, encRd := 0 } :=
  stepFor_of_head_ready hs rfl

end Transfers

/-- Settles O15: each of the 1028 transfers finds ENC in EMIT, at the offset of the bytes put before it. -/
theorem wholeFrameIsEmitted : Obligations.WholeFrameIsEmitted := by
  unfold Obligations.WholeFrameIsEmitted
  intro s rest ph _ rd script
  refine ⟨fun k hk => ⟨withFirstBytes Config.params k (List.replicate (1028 - k) .txReady ++ rest) s, ?_, ph, rfl, rfl⟩,
    withWholeFrame Config.params rest s, ?_, withWholeFrame_txOut _ _ _, rfl, rfl, rfl, rfl,
    ⟨rfl, rfl, rfl, rfl, rfl, rfl, rfl⟩, rfl, rfl⟩
  · rw [defaultParametersGiveThisHardware]
    refine run_first_transfers ?_ ph rd hk
    rw [script, ← List.append_assoc, List.replicate_append_replicate, Nat.add_sub_cancel' hk.le]
  · rw [defaultParametersGiveThisHardware]
    exact run_whole_frame script ph rd

/-- Settles O17: the transfers put the first `r` bytes, and the reset puts none. -/
theorem resetCutsTheFrameShort : Obligations.ResetCutsTheFrameShort := by
  unfold Obligations.ResetCutsTheFrameShort
  intro s r rest ph _ rd hr script
  have sent : runFor Config.params r s = .next (withFirstBytes Config.params r (.encRst :: rest) s) :=
    run_first_transfers script ph rd hr
  rw [defaultParametersGiveThisHardware, runFor_add sent, runFor_succ_of_next (stepFor_encReset rfl)]
  exact ⟨_, rfl, rfl, rfl, rfl, rfl, rfl⟩

/-! ## One operation of ENC (R92, R93, R94) -/

@[simp] theorem emitNext_encBuf (p : Config.Params) (s : State) : (emitNext p s).encBuf = s.encBuf := by
  rcases emitNext_cases p s with ⟨-, h⟩ | ⟨-, h⟩ <;> rw [h]

/-- The sample that fills the buffer opens `tx`, and no other does. -/
theorem txValid_withSample (p : Config.Params) (v : Sample) (s : State) :
    txValid false (withSample p v s) = decide (s.encWr + 1 = p.n) := by
  by_cases full : s.encWr + 1 = p.n <;> simp [txValid, withSample, full]

/-- Settles O9: OBSERVE answers ENC with one sample more. -/
theorem observeStoresTheSample : Obligations.ObserveStoresTheSample := by
  unfold Obligations.ObserveStoresTheSample
  intro v s wf ph room
  have effect : Effect Config.params (.observe v) s (withSample Config.params v s) := ⟨room, rfl⟩
  refine ⟨congrArg Except.ok (decodeS_sample v), withSample Config.params v s, ?_,
    Memory.read_write_same wf _ v, fun j hj => Memory.read_write_other wf hj v, rfl, rfl,
    txValid_withSample _ _ _, rfl, effect.rxSame_of_ofEnc rfl, ⟨rfl, rfl⟩, effect.inputsSame (.inl rfl)⟩
  rw [exec_eq_execFor]
  exact execFor_of_effect (decide_eq_true ph) effect

/-- Settles O10: ACQFAULT answers the halted state, and in EMIT the `s` channel is closed. -/
theorem acqFaultHaltsTheEncoder : Obligations.AcqFaultHaltsTheEncoder := by
  unfold Obligations.AcqFaultHaltsTheEncoder
  intro x s
  refine ⟨fun ph => ⟨congrArg Except.ok (decodeS_acqFault x), haltEnc s, ?_, rfl, rfl, rfl, rfl⟩, fun ph => ?_⟩
  · rw [exec_eq_execFor]
    exact execFor_of_effect (decide_eq_true ph) rfl
  · simp [sReady, ph]

/-- Settles O13: EMIT puts the byte `tx_data` shows, and the index moves on as `emitNext` says. -/
theorem emitPutsTheNextFrameByte : Obligations.EmitPutsTheNextFrameByte := by
  unfold Obligations.EmitPutsTheNextFrameByte
  intro s ph hr
  have effect : Effect Config.params .emit s
      (emitNext Config.params (txPut (emittedByte Config.params s.encBuf s.encRd) s)) := ⟨hr, rfl⟩
  refine ⟨rfl, emittedByte Config.params s.encBuf s.encRd, _, ?_, encodeFrame_getElem?_firstSlots hr,
    by simp [txData, txValid, ph], effect.txOut_eq, ?_, emitNext_encBuf _ _, effect.rxSame_of_ofEnc rfl,
    by simp, effect.inputsSame (.inl rfl)⟩
  · rw [exec_eq_execFor]
    exact execFor_of_effect (decide_eq_true ph) effect
  · have atEnd : s.encRd + 1 = Config.params.frameLen ↔ s.encRd = 1027 := Nat.succ_inj
    rcases emitNext_cases Config.params (txPut (emittedByte Config.params s.encBuf s.encRd) s)
      with ⟨last, e⟩ | ⟨more, e⟩ <;> rw [e]
    · rw [if_pos (atEnd.1 last)]
      exact ⟨rfl, rfl, rfl⟩
    · rw [if_neg (mt atEnd.2 more)]
      exact ⟨rfl, rfl, ph⟩

/-! ## Waiting (R91, R100, R198) -/

/-- Where no item is ready none is taken: an item that is taken is ready. -/
theorem fetch_eq_none {s : State} (closed : ∀ o ∈ s.script, offerReady s o = false) : fetch s = none := by
  rw [Option.eq_none_iff_forall_ne_some]
  rintro ⟨o, rest⟩ found
  obtain ⟨ready, waiting, later, script, -⟩ := firstReady_some found
  simp [closed o (by simp [script])] at ready

/-- Settles O43: nothing is fetched, so the step only moves the draw counter on. -/
theorem stepWaitsWhenNothingIsReady : Obligations.StepWaitsWhenNothingIsReady := by
  unfold Obligations.StepWaitsWhenNothingIsReady
  intro s closed
  rw [step, fetch_eq_none closed]
  rfl

end Sys2Proof.Machine

namespace Sys2Proof.Machine

section Synchronizer

variable {p : Config.Params} {i : Instr} {s t : State} {ph : RxPhase} {rest : List Offer} {b : Byte}

/-! ## One operation of the synchronizer (R111 to R114) -/

/-- An enabled instruction of a one-word format is the one its word decodes to, and its effect is this hardware's answer. -/
theorem decode_exec_of_effect (single : ∀ bytes, encode i ≠ .frame bytes) (on : enabled i s)
    (effect : Effect Config.params i s t) : decode s.rxPhase (encode i) = .ok i ∧ exec i s = .next t :=
  ⟨decodeFor_of_enabled rfl single on, exec_eq_execFor i s ▸ execFor_of_effect on effect⟩

/-- The phase a byte leads to from a seeking phase; the synchronizer does not touch the others. -/
def scanPhase (p : Config.Params) (b : Byte) : RxPhase → RxPhase
  | .seek1 => if b = p.magic0 then .seek2 else .seek1
  | .seek2 => if b = p.magic1 then .cntLo else .seek1
  | .cntLo => .cntLo
  | .cntHi => .cntHi
  | .payload => .payload

@[simp] theorem scanPhase_magic0 : scanPhase p p.magic0 .seek1 = .seek2 := if_pos rfl

@[simp] theorem scanPhase_magic1 : scanPhase p p.magic1 .seek2 = .cntLo := if_pos rfl

theorem scanPhase_of_ne_magic0 (hb : b ≠ p.magic0) : scanPhase p b .seek1 = .seek1 := if_neg hb

theorem scanPhase_of_ne_magic1 (hb : b ≠ p.magic1) : scanPhase p b .seek2 = .seek1 := if_neg hb

/-- A byte taken while seeking changes the phase and nothing else. -/
theorem effect_byte_of_seeking (seeks : s.rxPhase.seeking) :
    Effect p (decodeByte s.rxPhase b) s { s with rxPhase := scanPhase p b s.rxPhase } := by
  cases ph : s.rxPhase
  case seek1 | seek2 => rfl
  all_goals simp [ph, RxPhase.seeking] at seeks

/-! ## The scan of a byte sequence (R115) -/

/-- The state `s` once the scan has taken `k` bytes and stands in phase `ph`, with `rest` still offered. -/
def scanned (ph : RxPhase) (rest : List Offer) (k : Nat) (s : State) : State :=
  { s with rxPhase := ph, script := rest, draws := s.draws + k }

theorem scanned_zero (hs : s.script = rest) (hp : s.rxPhase = ph) : scanned ph rest 0 s = s := by
  cases s
  cases hs
  cases hp
  rfl

/-- This hardware's run from SEEK1 is a scan that has taken no byte yet. -/
theorem run_eq_scanned {k : Nat} (hs : s.script = rest) (hp : s.rxPhase = .seek1) :
    run k s = runFor Config.params k (scanned .seek1 rest 0 s) := by
  rw [scanned_zero hs hp, defaultParametersGiveThisHardware]

/-- While seeking, a run takes the next byte and goes on in the phase it leads to. -/
theorem runFor_scanned_cons {bytes : List Byte} {j k : Nat} (idle : s.oPend = .none) (seeks : ph.seeking) :
    runFor p (k + 1) (scanned ph (byteItems (b :: bytes) ++ rest) j s)
      = runFor p k (scanned (scanPhase p b ph) (byteItems bytes ++ rest) (j + 1) s) := by
  have taken : stepFor p (scanned ph (byteItems (b :: bytes) ++ rest) j s)
      = takeOfferFor p (.rxtok (byteToken b)) (scanned ph (byteItems bytes ++ rest) (j + 1) s) :=
    stepFor_of_head_ready rfl (decide_eq_true idle)
  have on : enabled (decodeByte ph b) (scanned ph (byteItems bytes ++ rest) (j + 1) s) := by
    rw [← decodeRx_byte]
    exact enabled_decodeRx (s := scanned ph _ _ s) idle (by simp)
  rw [takeOfferFor_byte] at taken
  exact runFor_succ_of_next (taken.trans (execFor_of_effect on (effect_byte_of_seeking seeks)))

/-- A byte other than `MAGIC0` is discarded. -/
theorem runFor_mismatch {bytes : List Byte} {j k : Nat} (idle : s.oPend = .none) (hb : b ≠ p.magic0) :
    runFor p (k + 1) (scanned .seek1 (byteItems (b :: bytes) ++ rest) j s)
      = runFor p k (scanned .seek1 (byteItems bytes ++ rest) (j + 1) s) := by
  rw [runFor_scanned_cons idle rfl, scanPhase_of_ne_magic0 hb]

/-- Bytes other than `MAGIC0` are discarded one after the other (R115 a). -/
theorem runFor_noise {noise bytes : List Byte} {j : Nat} (idle : s.oPend = .none) (other : ∀ b ∈ noise, b ≠ p.magic0) :
    runFor p noise.length (scanned .seek1 (byteItems (noise ++ bytes) ++ rest) j s)
      = .next (scanned .seek1 (byteItems bytes ++ rest) (j + noise.length) s) := by
  induction noise generalizing j with
  | nil => rfl
  | cons b noise ih =>
    obtain ⟨hb, others⟩ := List.forall_mem_cons.1 other
    rw [List.cons_append, List.length_cons, runFor_mismatch idle hb, ih others, Nat.add_right_comm, Nat.add_assoc]

/-- The marker, taken from SEEK1, leads to CNT_LO. -/
theorem runFor_marker {bytes : List Byte} {j : Nat} (idle : s.oPend = .none) :
    runFor p 2 (scanned .seek1 (byteItems (p.magic0 :: p.magic1 :: bytes) ++ rest) j s)
      = .next (scanned .cntLo (byteItems bytes ++ rest) (j + 2) s) := by
  rw [runFor_scanned_cons idle rfl, scanPhase_magic0, runFor_scanned_cons idle rfl, scanPhase_magic1, runFor_zero]

/-- `MAGIC0` and a byte that does not complete the marker are discarded together: the second is not looked at again. -/
theorem runFor_broken_marker {bytes : List Byte} {j k : Nat} (idle : s.oPend = .none) (hb : b ≠ p.magic1) :
    runFor p (k + 2) (scanned .seek1 (byteItems (p.magic0 :: b :: bytes) ++ rest) j s)
      = runFor p k (scanned .seek1 (byteItems bytes ++ rest) (j + 2) s) := by
  rw [runFor_scanned_cons idle rfl, scanPhase_magic0, runFor_scanned_cons idle rfl, scanPhase_of_ne_magic1 hb]

/-- In a run of `MAGIC0` every two cancel, so what is left before `MAGIC1` is the parity of their number (R115 b). -/
theorem runFor_magic0_run {r j : Nat} (idle : s.oPend = .none) :
    runFor p (r + 1) (scanned .seek1 (byteItems (List.replicate r p.magic0 ++ [p.magic1]) ++ rest) j s)
      = .next (scanned (if r % 2 = 1 then .cntLo else .seek1) rest (j + (r + 1)) s) := by
  induction r using Nat.twoStepInduction generalizing j with
  | zero => exact runFor_noise (noise := [p.magic1]) (bytes := []) idle (by simpa using p.magic_ne.symm)
  | one => exact runFor_marker (bytes := []) idle
  | more r ih _ =>
    rw [List.replicate_succ, List.replicate_succ, List.cons_append, List.cons_append, Nat.add_right_comm,
      runFor_broken_marker idle p.magic_ne, ih, Nat.add_mod_right, Nat.add_assoc j, Nat.add_comm 2]

/-- Where the greedy positions find a marker, the scan stands in CNT_LO right after it. -/
theorem runFor_of_scanAlign_some {bytes after : List Byte} {j : Nat} (idle : s.oPend = .none)
    (found : scanAlign p bytes = some after) :
    ∃ k, bytes.length = k + after.length ∧
      runFor p k (scanned .seek1 (byteItems bytes ++ rest) j s)
        = .next (scanned .cntLo (byteItems after ++ rest) (j + k) s) := by
  fun_induction scanAlign p bytes generalizing j with
  | case1 | case2 => cases found
  | case3 b c bytes hb ih =>
    obtain ⟨k, length, run⟩ := ih (j := j + 1) found
    refine ⟨k + 1, by rw [List.length_cons, length, Nat.add_right_comm], ?_⟩
    rw [runFor_mismatch idle hb, run, Nat.add_assoc, Nat.add_comm 1]
  | case4 b bytes hb =>
    cases found
    obtain rfl := not_not.1 hb
    exact ⟨2, Nat.add_comm after.length 2, runFor_marker idle⟩
  | case5 b c bytes hb hc ih =>
    obtain rfl := not_not.1 hb
    obtain ⟨k, length, run⟩ := ih (j := j + 2) found
    refine ⟨k + 2, by rw [List.length_cons, List.length_cons, length, Nat.add_right_comm k 2], ?_⟩
    rw [runFor_broken_marker idle hc, run, Nat.add_assoc, Nat.add_comm 2]

/-- Where the greedy positions find no marker, the scan takes every byte and is still seeking. -/
theorem runFor_of_scanAlign_none {bytes : List Byte} {j : Nat} (idle : s.oPend = .none)
    (missing : scanAlign p bytes = none) :
    ∃ ph : RxPhase, (ph = .seek1 ∨ ph = .seek2) ∧
      runFor p bytes.length (scanned .seek1 (byteItems bytes ++ rest) j s)
        = .next (scanned ph rest (j + bytes.length) s) := by
  fun_induction scanAlign p bytes generalizing j with
  | case1 => exact ⟨.seek1, .inl rfl, rfl⟩
  | case2 b =>
    refine ⟨scanPhase p b .seek1, ?_, (runFor_scanned_cons idle rfl).trans (runFor_zero _ _)⟩
    by_cases hb : b = p.magic0
    · exact .inr (if_pos hb)
    · exact .inl (if_neg hb)
  | case3 b c bytes hb ih =>
    obtain ⟨ph, seeks, run⟩ := ih (j := j + 1) missing
    refine ⟨ph, seeks, ?_⟩
    rw [List.length_cons (a := b), runFor_mismatch idle hb, run, Nat.add_assoc, Nat.add_comm 1]
  | case4 => cases missing
  | case5 b c bytes hb hc ih =>
    obtain rfl := not_not.1 hb
    obtain ⟨ph, seeks, run⟩ := ih (j := j + 2) missing
    refine ⟨ph, seeks, ?_⟩
    rw [List.length_cons, List.length_cons, runFor_broken_marker idle hc, run, Nat.add_assoc, Nat.add_comm 2]

/-! ## The way into the decoder (R116, R130) -/

theorem rxPhase_of_payloadNext (inside : (payloadNext s).rxPhase = .cntLo) : s.rxPhase = .cntLo := by
  rcases payloadNext_cases s with ⟨-, e⟩ | ⟨-, e⟩ <;> rw [e] at inside
  · cases inside
  · exact inside

/-- An effect that ends in CNT_LO began there, or is that of SEEK2.BYTE with `MAGIC1`. -/
theorem Effect.enters_cntLo (effect : Effect p i s t) (inside : t.rxPhase = .cntLo) :
    s.rxPhase = .cntLo ∨ i = .seek2Byte p.magic1 := by
  cases i
  case observe | acqFault | emit | encReset => exact .inl ((effect.rxSame_of_ofEnc rfl).phase ▸ inside)
  case wire => obtain ⟨-, rfl⟩ := effect; exact .inl inside
  case handoff => obtain ⟨e, -, rfl⟩ := effect; exact .inl inside
  case seek1Byte b => cases effect; by_cases hb : b = p.magic0 <;> simp [hb] at inside
  case seek2Byte b =>
    cases effect
    by_cases hb : b = p.magic1
    · exact .inr (congrArg _ hb)
    · simp [hb] at inside
  case cntHiByte b =>
    cases effect
    rw [startPayload_rxPhase] at inside
    split at inside <;> cases inside
  case payloadByte b =>
    rcases effect with ⟨-, rfl⟩ | ⟨-, -, rfl⟩ <;> exact .inl (by simpa using rxPhase_of_payloadNext inside)
  case reservedRxKind3 => cases effect
  all_goals cases effect; cases inside

end Synchronizer

/-- Settles O22: the noise is discarded byte by byte, and the marker after it is found. -/
theorem scanAlignsAfterNoiseWithoutMagic : Obligations.ScanAlignsAfterNoiseWithoutMagic := by
  unfold Obligations.ScanAlignsAfterNoiseWithoutMagic
  intro s noise rest ph idle other script
  have noisy := runFor_noise (p := Config.params) (bytes := [0xAA, 0x55]) (rest := rest) (j := 0) idle other
  rw [run_eq_scanned script ph, run_eq_scanned script ph, runFor_add noisy, Nat.zero_add]
  exact ⟨⟨_, noisy, rfl, idle⟩, runFor_marker (bytes := []) idle⟩

/-- Settles O23: the run of `MAGIC0` at the default marker. -/
theorem runOfMagicAlignsOnlyIfOdd : Obligations.RunOfMagicAlignsOnlyIfOdd := by
  unfold Obligations.RunOfMagicAlignsOnlyIfOdd
  intro s r rest ph idle script
  have aligned := runFor_magic0_run (p := Config.params) (r := r) (rest := rest) (j := 0) idle
  rw [Nat.zero_add] at aligned
  exact (run_eq_scanned script ph).trans aligned

/-- Settles O24: each outcome of the greedy positions is that of the scan. -/
theorem scanFollowsTheGreedyPositions : Obligations.ScanFollowsTheGreedyPositions := by
  unfold Obligations.ScanFollowsTheGreedyPositions
  intro s bytes rest ph idle script
  cases greedy : scanAlign Config.params bytes with
  | some after =>
    obtain ⟨k, length, scan⟩ := runFor_of_scanAlign_some (rest := rest) (j := 0) idle greedy
    refine ⟨scanned .cntLo (byteItems after ++ rest) (0 + k) s, ?_, rfl, idle, rfl, rfl⟩
    rw [length, Nat.add_sub_cancel, run_eq_scanned script ph, scan]
  | none =>
    obtain ⟨_, seeks, scan⟩ := runFor_of_scanAlign_none (rest := rest) (j := 0) idle greedy
    exact ⟨_, (run_eq_scanned script ph).trans scan, seeks, idle, rfl, rfl⟩

/-- Settles O25: an instruction that is not enabled changes no phase, and SEEK2.BYTE is enabled only in SEEK2. -/
theorem onlyTheMarkerEntersTheDecoder : Obligations.OnlyTheMarkerEntersTheDecoder := by
  unfold Obligations.OnlyTheMarkerEntersTheDecoder
  intro i s t h inside outside
  rcases exec_next h with ⟨-, rfl⟩ | ⟨on, effect⟩
  · exact absurd inside outside
  · obtain rfl := (effect.enters_cntLo inside).resolve_left outside
    obtain ⟨idle, seeks⟩ := of_decide_eq_true on
    exact ⟨of_decide_eq_true seeks, idle, rfl⟩

/-- Settles O19: SEEK1.BYTE is enabled in SEEK1, and its effect is the one stated. -/
theorem seekOneMatchesTheFirstMarkerByte : Obligations.SeekOneMatchesTheFirstMarkerByte := by
  unfold Obligations.SeekOneMatchesTheFirstMarkerByte
  intro b s ph idle
  exact decode_exec_of_effect (i := .seek1Byte b) nofun (decide_eq_true ⟨idle, decide_eq_true ph⟩) rfl

/-- Settles O20: SEEK2.BYTE is enabled in SEEK2, and its effect is the one stated. -/
theorem seekTwoMatchesTheSecondMarkerByte : Obligations.SeekTwoMatchesTheSecondMarkerByte := by
  unfold Obligations.SeekTwoMatchesTheSecondMarkerByte
  intro b s ph idle
  exact decode_exec_of_effect (i := .seek2Byte b) nofun (decide_eq_true ⟨idle, decide_eq_true ph⟩) rfl

/-- Settles O21: both seeking phases enable both operations, whose effect is the fault with its cause. -/
theorem seekingInterruptedRaisesTransportFault : Obligations.SeekingInterruptedRaisesTransportFault := by
  unfold Obligations.SeekingInterruptedRaisesTransportFault
  intro x s ph idle
  have seeks : s.rxPhase.seeking := by rcases ph with ph | ph <;> rw [ph] <;> rfl
  obtain ⟨timeoutWord, timeout⟩ := decode_exec_of_effect (i := .seekTimeout x) nofun (decide_eq_true ⟨idle, seeks⟩) rfl
  obtain ⟨eosWord, eos⟩ := decode_exec_of_effect (i := .seekEos x) nofun (decide_eq_true ⟨idle, seeks⟩) rfl
  exact ⟨timeoutWord, timeout, eosWord, eos⟩

end Sys2Proof.Machine

namespace Sys2Proof.Machine

section DecoderBytes

variable {p : Config.Params} {s t : State} {b : Byte}

/-! ## One operation of the decoder (R131 to R137) -/

/-- The state once a payload byte is stored, before the index moves on: a byte of even index waits in `dec_lo`, one of
odd index completes a sample (R133). -/
def withPayloadByte (b : Byte) (s : State) : State :=
  { s with
    decLo := if s.decIdx % 2 = 0 then b else s.decLo
    decBuf := if s.decIdx % 2 = 0 then s.decBuf else withPayloadSample b s }

/-- A payload byte whose slot exists is stored, and the index moves on. -/
theorem effect_payloadByte (room : s.decIdx ≤ 131069) :
    Effect p (.payloadByte b) s (payloadNext (withPayloadByte b s)) := by
  rcases Nat.mod_two_eq_zero_or_one s.decIdx with even | odd
  · exact .inl ⟨even, by simp [withPayloadByte, even]⟩
  · exact .inr ⟨odd, by omega, by simp [withPayloadByte, withPayloadSample, odd]⟩

@[simp] theorem payloadNext_decLo (s : State) : (payloadNext s).decLo = s.decLo := by
  rcases payloadNext_cases s with ⟨-, e⟩ | ⟨-, e⟩ <;> rw [e]; rfl

@[simp] theorem payloadNext_decCount (s : State) : (payloadNext s).decCount = s.decCount := by
  rcases payloadNext_cases s with ⟨-, e⟩ | ⟨-, e⟩ <;> rw [e]; rfl

@[simp] theorem payloadNext_oCause (s : State) : (payloadNext s).oCause = s.oCause := by
  rcases payloadNext_cases s with ⟨-, e⟩ | ⟨-, e⟩ <;> rw [e]; rfl

theorem eventsOwed_of_pending {e : Event} (pending : pendingEvent s = some e) : eventsOwed s = s.oOut ++ [e] := by
  rw [eventsOwed, pending]
  rfl

/-- HANDOFF with an event pending delivers that event. -/
theorem exec_handoff_of_pending {e : Event} (pending : pendingEvent s = some e) :
    exec .handoff s = .next { s with oPend := .none, oOut := s.oOut ++ [e] } := by
  rw [exec_handoff, handedOver, eventsOwed_of_pending pending]

end DecoderBytes

/-- Settles O26: CNTLO.BYTE is enabled in CNT_LO, and the count it answers has the byte below its old high byte. -/
theorem countLowByteIsTaken : Obligations.CountLowByteIsTaken := by
  unfold Obligations.CountLowByteIsTaken
  intro b s ph idle
  obtain ⟨word, answer⟩ :=
    decode_exec_of_effect (i := .cntLoByte b) nofun (decide_eq_true ⟨idle, decide_eq_true ph⟩) rfl
  exact ⟨word, word16 (highByte s.decCount) b, lowByte_word16 _ _, highByte_word16 _ _, answer⟩

/-- Settles O27: CNTHI.BYTE is enabled in CNT_HI, and what the whole count leads to is what `startPayload` says. -/
theorem countHighByteStartsThePayload : Obligations.CountHighByteStartsThePayload := by
  unfold Obligations.CountHighByteStartsThePayload
  intro b s ph idle
  obtain ⟨word, answer⟩ :=
    decode_exec_of_effect (i := .cntHiByte b) nofun (decide_eq_true ⟨idle, decide_eq_true ph⟩) rfl
  exact ⟨word, word16 b (lowByte s.decCount), (word16_toNat _ _).trans (Nat.add_comm _ _), answer⟩

/-- Settles O28: what is stored is `withPayloadByte`, and the index moves on as `payloadNext` says. -/
theorem payloadByteIsPlaced : Obligations.PayloadByteIsPlaced := by
  unfold Obligations.PayloadByteIsPlaced
  intro b s wf ph idle room
  have effect := effect_payloadByte (p := Config.params) (b := b) room
  obtain ⟨word, answer⟩ :=
    decode_exec_of_effect (i := .payloadByte b) nofun (decide_eq_true ⟨idle, decide_eq_true ph⟩) effect
  refine ⟨word, _, answer, ?_, ?_, payloadNext_decCount _, payloadNext_oCause _, effect.encSame_of_ofRx rfl,
    ⟨payloadNext_txOut _, payloadNext_oOut _⟩, effect.inputsSame (.inr rfl)⟩
  · rw [payloadNext_decLo, payloadNext_decBuf, withPayloadByte]
    split
    · exact ⟨rfl, rfl⟩
    · exact ⟨rfl, Memory.read_write_same wf _ _, fun j hj => Memory.read_write_other wf hj _⟩
  · rcases payloadNext_cases (withPayloadByte b s) with ⟨last, e⟩ | ⟨more, e⟩ <;> rw [e]
    · exact (if_pos last).mpr ⟨rfl, rfl, rfl⟩
    · exact (if_neg more).mpr ⟨idle, ph, rfl⟩

/-- Settles O29: the three decoder phases enable both operations, whose effect is the fault with its cause. -/
theorem shortReadRaisesShortPayloadFault : Obligations.ShortReadRaisesShortPayloadFault := by
  unfold Obligations.ShortReadRaisesShortPayloadFault
  intro x s ph idle
  have decodes : !s.rxPhase.seeking := by rcases ph with ph | ph | ph <;> rw [ph] <;> rfl
  obtain ⟨timeoutWord, timeout⟩ := decode_exec_of_effect (i := .decTimeout x) nofun (decide_eq_true ⟨idle, decodes⟩) rfl
  obtain ⟨eosWord, eos⟩ := decode_exec_of_effect (i := .decEos x) nofun (decide_eq_true ⟨idle, decodes⟩) rfl
  exact ⟨timeoutWord, timeout, eosWord, eos⟩

/-- Settles O31: HANDOFF delivers the pending event, which for a frame holds the signed slots. -/
theorem handoffDeliversThePendingEvent : Obligations.HandoffDeliversThePendingEvent := by
  unfold Obligations.HandoffDeliversThePendingEvent
  intro s
  refine ⟨rfl, fun pends => ⟨(s.decBuf.firstSlots s.decCount.toNat).map toS16, by simp, fun j hj => ?_,
    exec_handoff_of_pending (by simp [pendingEvent, pends])⟩,
    fun pends => exec_handoff_of_pending (by simp [pendingEvent, pends])⟩
  rw [List.getElem?_map, Memory.firstSlots_getElem? hj, Option.map_some, toS16_eq_toInt]

section Reception

variable {p : Config.Params} {s t u : State} {rest : List Offer} {f : List Sample} {b : Byte}
  {bytes more held taken : List Byte}

/-! ## The frame in progress, byte by byte (R136) -/

/-- The phase in which RX has taken a number of bytes of a frame in progress. -/
def phaseAfter : Nat → RxPhase
  | 0 => .seek1
  | 1 => .seek2
  | 2 => .cntLo
  | 3 => .cntHi
  | _ + 4 => .payload

theorem phaseAfter_of_four_le {k : Nat} (h : 4 ≤ k) : phaseAfter k = .payload := by
  obtain ⟨j, rfl⟩ := Nat.exists_eq_add_of_le' h
  rfl

/-- RX's phase follows from how many bytes of the frame in progress it holds. -/
theorem rxPhase_eq_phaseAfter (p : Config.Params) (s : State) : s.rxPhase = phaseAfter (rxPartial p s).length := by
  cases ph : s.rxPhase
  case payload => rw [length_rxPartial_payload ph, phaseAfter_of_four_le (Nat.le_add_right 4 _)]
  all_goals
    rw [rxPartial, ph]
    rfl

/-- With nothing pending RX holds these bytes of a frame in progress, inside its bounds. -/
structure Holds (p : Config.Params) (held : List Byte) (s : State) : Prop where
  idle : s.oPend = .none
  inv : RxInv s
  wf : s.decBuf.wf
  bytes : rxPartial p s = held

/-- RX seeks again and owes its consumer the frame. -/
structure OwesFrame (f : List Sample) (s : State) : Prop where
  phase : s.rxPhase = .seek1
  event : pendingEvent s = some (.frame (BitVec.ofNat 16 f.length) (f.map toS16))

theorem Holds.phase (h : Holds p held s) : s.rxPhase = phaseAfter held.length :=
  h.bytes ▸ rxPhase_eq_phaseAfter p s

theorem Holds.of_rxSame (h : Holds p held s) (same : RxSame s t) : Holds p held t :=
  ⟨same.pend.trans h.idle, h.inv.of_rxSame same, same.buf ▸ h.wf, same.rxPartial_eq.trans h.bytes⟩

theorem holds_nil (ph : s.rxPhase = .seek1) (idle : s.oPend = .none) (wf : s.decBuf.wf) : Holds p [] s :=
  ⟨idle, rxInv_of_idle idle (by simp [ph]), wf, rxPartial_seek1 ph⟩

theorem Holds.enabled_byte (h : Holds p held s) (b : Byte) : enabled (decodeByte s.rxPhase b) s := by
  rw [← decodeRx_byte]
  exact enabled_decodeRx h.idle (by simp)

/-- In every phase a byte has an effect: inside the bounds a payload byte's slot exists. -/
theorem Holds.effect_byte (h : Holds p held s) (b : Byte) : ∃ t, Effect p (decodeByte s.rxPhase b) s t := by
  cases ph : s.rxPhase
  case payload =>
    have bound := (h.inv.payload ph).2
    have count := s.decCount.isLt
    exact ⟨_, effect_payloadByte (by omega)⟩
  all_goals exact ⟨_, rfl⟩

theorem decodeByte_takesRxToken (ph : RxPhase) (b : Byte) : (decodeByte ph b).takesRxToken := by cases ph <;> rfl

/-- A byte keeps the buffer's canonical form. -/
theorem Effect.decBuf_wf_of_byte {ph : RxPhase} (effect : Effect p (decodeByte ph b) s t) (wf : s.decBuf.wf) :
    t.decBuf.wf := by
  cases ph
  case cntHi => cases effect; simpa using wf
  case payload =>
    rcases effect with ⟨-, rfl⟩ | ⟨-, -, rfl⟩ <;> rw [payloadNext_decBuf]
    · exact wf
    · exact Memory.write_wf wf _ _
  all_goals cases effect; exact wf

/-- After a byte that leaves nothing pending RX holds the bytes that its registers then say. -/
theorem Holds.after_byte (h : Holds p held s) (effect : Effect p (decodeByte s.rxPhase b) s t) (idle : t.oPend = .none)
    (bytes : rxPartial p t = taken) : Holds p taken t :=
  ⟨idle, effect.rxInv (ofRx_of_takesRxToken (decodeByte_takesRxToken _ b)) h.inv (h.enabled_byte b),
    effect.decBuf_wf_of_byte h.wf, bytes⟩

/-- The parameters with a frame's length for `N`. RX does not use `N` (R7), so what it does with a frame of `N` samples
it does with every frame that has samples. -/
def withLength (p : Config.Params) (f : List Sample) (pos : 1 ≤ f.length) (short : f.length ≤ 65535) : Config.Params :=
  { p with n := f.length, n_pos := pos, n_le := short }

theorem effect_byte_withLength {ph : RxPhase} (pos : 1 ≤ f.length) (short : f.length ≤ 65535) :
    Effect (withLength p f pos short) (decodeByte ph b) s t ↔ Effect p (decodeByte ph b) s t := by
  cases ph <;> exact Iff.rfl

/-- Where RX stands once it has taken these bytes of a frame: it owes the whole frame, or holds what there is of it. -/
def BytesTaken (p : Config.Params) (f : List Sample) (taken : List Byte) (t : State) : Prop :=
  taken = encodeFrame p f ∧ OwesFrame f t ∨ taken ≠ encodeFrame p f ∧ Holds p taken t

/-- RX takes the next byte of a frame that has samples. -/
theorem Holds.byte_of_nonempty (h : Holds p held s) (next : held ++ [b] <+: encodeFrame p f) (pos : 1 ≤ f.length)
    (short : f.length ≤ 65535) (effect : Effect p (decodeByte s.rxPhase b) s t) : BytesTaken p f (held ++ [b]) t := by
  obtain rfl := h.bytes
  have took := execFor_of_effect (h.enabled_byte b) ((effect_byte_withLength pos short).2 effect)
  rcases byte_of_frame_taken (p := withLength p f pos short) h.wf h.idle rfl next took
    with ⟨whole, released, event⟩ | ⟨grown, idle⟩
  · exact .inl ⟨whole, by rw [rxPhase_eq_phaseAfter, released]; rfl, event⟩
  · have h' := h.after_byte effect idle grown
    refine .inr ⟨fun whole => ?_, h'⟩
    have held : rxPartial p t = encodeFrame p f := grown.trans whole
    have less := length_rxPartial_lt (p := withLength p f pos short) (f := f) (tail := []) h'.inv rfl
      (by rw [List.append_nil]; exact held ▸ List.prefix_rfl)
    exact less.ne ((congrArg List.length held).trans (length_encodeFrame p f))

/-- RX takes the next byte of the frame of no samples, which is a header alone. -/
theorem Holds.byte_of_empty (h : Holds p held s) (next : held ++ [b] <+: encodeFrame p [])
    (effect : Effect p (decodeByte s.rxPhase b) s t) : BytesTaken p [] (held ++ [b]) t := by
  obtain rfl := h.bytes
  have after := h.after_byte effect (taken := rxPartial p s ++ [b])
  cases ph : s.rxPhase <;> rw [ph] at effect
  case payload =>
    have long := next.length_le
    simp [length_rxPartial_payload ph] at long
  all_goals
    simp only [rxPartial, ph, List.cons_append, List.nil_append, encodeFrame, List.length_nil, payloadBytes,
      List.cons_prefix_cons, List.nil_prefix, List.prefix_rfl, and_true, true_and] at next
  case seek1 | seek2 | cntLo =>
    cases effect
    exact .inr ⟨by simp [rxPartial, ph, encodeFrame], after h.idle (by simp [rxPartial, ph, next])⟩
  case cntHi =>
    obtain ⟨low, high⟩ := next
    have zero : word16 b (lowByte s.decCount) = 0 := by rw [low, high]; exact word16_high_low 0
    have ends : t = pendFrame { s with decCount := word16 b (lowByte s.decCount) } := effect.trans (if_pos zero)
    rw [ends]
    exact .inl ⟨by simp [rxPartial, ph, encodeFrame, payloadBytes, low, high], rfl, by simp [pendingEvent, zero]⟩

/-- RX takes the next byte of a frame: the last one makes it owed. -/
theorem Holds.byte (h : Holds p held s) (next : held ++ [b] <+: encodeFrame p f) (short : f.length ≤ 65535)
    (effect : Effect p (decodeByte s.rxPhase b) s t) : BytesTaken p f (held ++ [b]) t := by
  rcases Nat.eq_zero_or_pos f.length with empty | pos
  · obtain rfl := List.eq_nil_of_length_eq_zero empty
    exact h.byte_of_empty next effect
  · exact h.byte_of_nonempty next pos short effect

/-! ## Runs over the bytes of a frame (R139) -/

/-- The run over these BYTE items, with `rest` offered after them, leads from `s` to `t`; ENC and both traces are as
they were. -/
structure Takes (p : Config.Params) (bytes : List Byte) (rest : List Offer) (s t : State) : Prop where
  run : runFor p bytes.length s = .next t
  enc : EncSame s t
  traces : TracesSame s t
  script : t.script = rest

theorem Takes.nil (hs : s.script = rest) : Takes p [] rest s s := ⟨rfl, .refl s, ⟨rfl, rfl⟩, hs⟩

theorem Takes.append (h : Takes p bytes (byteItems more ++ rest) s t) (k : Takes p more rest t u) :
    Takes p (bytes ++ more) rest s u :=
  ⟨by rw [List.length_append, runFor_add h.run, k.run], h.enc.trans k.enc,
    ⟨k.traces.tx.trans h.traces.tx, k.traces.o.trans h.traces.o⟩, k.script⟩

theorem byteItems_append (xs ys : List Byte) : byteItems (xs ++ ys) = byteItems xs ++ byteItems ys := List.map_append

/-- RX takes the next byte of a frame in progress. -/
theorem Holds.takes_byte (h : Holds p held s) (short : f.length ≤ 65535) (hs : s.script = byteItems [b] ++ rest)
    (next : held ++ [b] <+: encodeFrame p f) : ∃ t, Takes p [b] rest s t ∧ BytesTaken p f (held ++ [b]) t := by
  have h' : Holds p held (advance rest s) := h.of_rxSame ⟨rfl, rfl, rfl, rfl, rfl, rfl, rfl⟩
  obtain ⟨t, effect⟩ := h'.effect_byte b
  have took : takeOfferFor p (.rxtok (byteToken b)) (advance rest s) = .next t :=
    (takeOfferFor_byte p b _).trans (execFor_of_effect (h'.enabled_byte b) effect)
  have step : stepFor p s = .next t := (stepFor_of_head_ready hs (decide_eq_true h.idle)).trans took
  obtain ⟨enc, tx, o⟩ := takeOfferFor_rxtok_same took (by simp)
  have ofRx := ofRx_of_takesRxToken (decodeByte_takesRxToken s.rxPhase b)
  exact ⟨t, ⟨(runFor_succ_of_next step).trans (runFor_zero p t), ⟨enc.buf, enc.wr, enc.rd, enc.phase⟩, ⟨tx, o⟩,
    (effect.inputsSame (.inr ofRx)).script⟩, h'.byte next short effect⟩

/-- RX takes any bytes that continue a frame in progress, whatever their values (R136). -/
theorem Holds.takes_bytes (h : Holds p held s) (short : f.length ≤ 65535) (hs : s.script = byteItems bytes ++ rest)
    (unfinished : held ≠ encodeFrame p f) (next : held ++ bytes <+: encodeFrame p f) :
    ∃ t, Takes p bytes rest s t ∧ BytesTaken p f (held ++ bytes) t := by
  induction bytes using List.reverseRecOn generalizing rest with
  | nil => exact ⟨s, .nil hs, .inr (by rw [List.append_nil]; exact ⟨unfinished, h⟩)⟩
  | append_singleton bytes b ih =>
    rw [byteItems_append, List.append_assoc] at hs
    rw [← List.append_assoc] at next ⊢
    obtain ⟨t, took, ⟨whole, -⟩ | ⟨-, h'⟩⟩ := ih hs ((List.prefix_append _ [b]).trans next)
    · have long := next.length_le
      rw [← whole, List.length_append, List.length_singleton] at long
      omega
    · obtain ⟨u, took', taken⟩ := h'.takes_byte short took.script next
      exact ⟨u, took.append took', taken⟩

/-- Over fewer bytes than complete the frame RX goes on holding them. -/
theorem Holds.takes_part (h : Holds p held s) (short : f.length ≤ 65535) (hs : s.script = byteItems bytes ++ rest)
    (next : held ++ bytes <+: encodeFrame p f) (less : held.length + bytes.length < 4 + 2 * f.length) :
    ∃ t, Takes p bytes rest s t ∧ Holds p (held ++ bytes) t := by
  have unfinished {taken : List Byte} (fewer : taken.length < 4 + 2 * f.length) : taken ≠ encodeFrame p f := by
    rintro rfl
    simp at fewer
  obtain ⟨t, took, ⟨whole, -⟩ | ⟨-, h'⟩⟩ := h.takes_bytes short hs (unfinished (by omega)) next
  · exact absurd whole (unfinished (by rwa [List.length_append]))
  · exact ⟨t, took, h'⟩

/-- Over the bytes that complete the frame RX comes to owe it. -/
theorem Holds.takes_rest (h : Holds p held s) (short : f.length ≤ 65535) (hs : s.script = byteItems bytes ++ rest)
    (whole : held ++ bytes = encodeFrame p f) (more : bytes ≠ []) : ∃ t, Takes p bytes rest s t ∧ OwesFrame f t := by
  have unfinished : held ≠ encodeFrame p f := fun same => more (List.append_right_eq_self.1 (whole.trans same.symm))
  obtain ⟨t, took, ⟨-, owes⟩ | ⟨partly, -⟩⟩ := h.takes_bytes short hs unfinished (whole ▸ List.prefix_rfl)
  · exact ⟨t, took, owes⟩
  · exact absurd whole partly

/-- So on the way it has held every beginning of the frame. -/
theorem Holds.takes_first {k : Nat} (h : Holds p held s) (short : f.length ≤ 65535)
    (hs : s.script = byteItems bytes ++ rest) (whole : held ++ bytes = encodeFrame p f) (hk : k < bytes.length) :
    ∃ u, runFor p k s = .next u ∧ Holds p (held ++ bytes.take k) u := by
  have offered : s.script = byteItems (bytes.take k) ++ (byteItems (bytes.drop k) ++ rest) := by
    rw [← List.append_assoc, ← byteItems_append, List.take_append_drop, hs]
  have length : (bytes.take k).length = k := List.length_take_of_le hk.le
  have total : held.length + bytes.length = 4 + 2 * f.length := by rw [← List.length_append, whole, length_encodeFrame]
  have next : held ++ bytes.take k <+: encodeFrame p f := by
    rw [← whole, List.prefix_append_right_inj]
    exact List.take_prefix k bytes
  obtain ⟨u, took, holds⟩ := h.takes_part short offered next (by omega)
  exact ⟨u, length ▸ took.run, holds⟩

/-! ## Handing over, and the token that cuts a frame short (R134, R135, R137) -/

theorem pend_of_pendingEvent_frame {count : BitVec 16} {samples : List Int}
    (pending : pendingEvent s = some (.frame count samples)) : s.oPend = .frame := by
  unfold pendingEvent at pending
  split at pending
  case h_2 pends => exact pends
  all_goals cases pending

/-- The consumer takes the pending event. -/
theorem stepFor_handoff (hs : s.script = .oReady :: rest) (pends : s.oPend ≠ .none) :
    stepFor p s = .next (handedOver (advance rest s)) :=
  (stepFor_of_head_ready hs (by simp [offerReady, oValid, pends])).trans (exec_handoff _)

theorem seeking_phaseAfter {k : Nat} (hk : 2 ≤ k) : (phaseAfter k).seeking = false := by
  match k, hk with
  | 2, _ | 3, _ | _ + 4, _ => rfl

/-- A TIMEOUT or an EOS taken with a frame in progress (R134, R135). -/
theorem stepFor_interrupt {w : RxToken} (hw : rxKind w = 1 ∨ rxKind w = 2) (hs : s.script = .rxtok w :: rest)
    (idle : s.oPend = .none) (decodes : s.rxPhase.seeking = false) :
    stepFor p s = .next (raiseRx (if rxKind w = 1 then 3 else 4) (advance rest s)) := by
  have takes : rxTakesIn [.cntLo, .cntHi, .payload] (advance rest s) :=
    (rxTakesIn_rowPhases (i := .decTimeout 0) rfl _).trans (decide_eq_true ⟨idle, by simp [Instr.selectedIn, decodes]⟩)
  rw [stepFor_of_head_ready hs (decide_eq_true idle), takeOfferFor_interrupt p hw, advance_rxPhase, decodes]
  exact if_pos takes

/-- A frame in progress is discarded with the fault, and once that is handed over RX seeks the next frame (R158). -/
theorem Holds.cut_short {w : RxToken} (h : Holds p held s) (decoding : 2 ≤ held.length)
    (hw : rxKind w = 1 ∨ rxKind w = 2) (hs : s.script = .rxtok w :: .oReady :: rest) :
    ∃ t, runFor p 2 s = .next t ∧ t.rxPhase = .seek1 ∧ t.oPend = .none ∧ t.decBuf.wf
      ∧ t.oOut = s.oOut ++ [.fault (if rxKind w = 1 then 3 else 4)] ∧ t.script = rest := by
  have raised := stepFor_interrupt (p := p) hw hs h.idle (by rw [h.phase]; exact seeking_phaseAfter decoding)
  have delivered : stepFor p (raiseRx (if rxKind w = 1 then 3 else 4) (advance (.oReady :: rest) s)) = .next _ :=
    stepFor_handoff rfl nofun
  exact ⟨_, (runFor_succ_of_next raised).trans (runFor_succ_of_next delivered), rfl, rfl, h.wf,
    eventsOwed_of_pending rfl, rfl⟩

end Reception

/-- Settles O34: the count and the payload are the rest of a frame whose marker RX has taken, so how far it has come
says in which phase RX is. -/
theorem decodingGoesByByteCount : Obligations.DecodingGoesByByteCount := by
  unfold Obligations.DecodingGoesByByteCount
  intro s l h payload rest wf ph idle length script
  have decoded : decodeFrame Config.params ([0xAA, 0x55] ++ l :: h :: payload) = .ok (decodePatterns payload) := by
    simp [decodeFrame, Config.params, length]
  obtain ⟨frame, short⟩ := encodeFrame_of_decodeFrame decoded
  have count : (decodePatterns payload).length = (word16 h l).toNat := length_decodePatterns length
  have marker : Holds Config.params [0xAA, 0x55] s :=
    ⟨idle, rxInv_of_idle idle (by simp [ph]), wf, by rw [rxPartial, ph]; rfl⟩
  have inside (k : Nat) (hk : k < 2 + payload.length) :
      ∃ u, run k s = .next u ∧ u.rxPhase = phaseAfter (2 + k) ∧ u.oPend = .none := by
    have within : k < (l :: h :: payload).length := by rw [List.length_cons, List.length_cons]; omega
    obtain ⟨u, run, holds⟩ := marker.takes_first short script frame.symm within
    refine ⟨u, (defaultParametersGiveThisHardware k s).trans run, ?_, holds.idle⟩
    rw [holds.phase, List.length_append, List.length_take_of_le within.le]
    rfl
  refine ⟨inside 1 (by omega), fun k hk more => ?_, ?_⟩
  · obtain ⟨u, run, phase, idle'⟩ := inside k more
    exact ⟨u, run, phase.trans (phaseAfter_of_four_le (by omega)), idle'⟩
  · obtain ⟨t, took, owes⟩ := marker.takes_rest short script frame.symm nofun
    refine ⟨t, ?_, owes.phase, ?_, took.enc, took.traces, took.script⟩
    · rw [defaultParametersGiveThisHardware, ← took.run, List.length_cons, List.length_cons, Nat.add_comm]
    · rw [owes.event, count, BitVec.ofNat_toNat, BitVec.setWidth_eq]
      rfl

/-- Settles O35: RX comes to owe the frame, and the consumer takes it. -/
theorem wholeFrameIsReceived : Obligations.WholeFrameIsReceived := by
  unfold Obligations.WholeFrameIsReceived
  intro s samples rest wf ph idle _ short script
  obtain ⟨u, took, owes⟩ := (holds_nil ph idle wf).takes_rest short script (List.nil_append _) nofun
  have received : runFor Config.params (4 + 2 * samples.length) s = .next u := by
    rw [← length_encodeFrame Config.params, took.run]
  have pends := pend_of_pendingEvent_frame owes.event
  have delivered := stepFor_handoff (p := Config.params) took.script (by rw [pends]; nofun)
  refine ⟨⟨u, (defaultParametersGiveThisHardware _ s).trans received, pends, owes.phase, took.traces.o⟩,
    handedOver (advance rest u), ?_, ?_, owes.phase, rfl, took.enc.trans ⟨rfl, rfl, rfl, rfl⟩, took.traces.tx, rfl⟩
  · rw [defaultParametersGiveThisHardware, runFor_add received, runFor_succ_of_next delivered, runFor_zero]
  · exact (eventsOwed_of_pending (s := advance rest u) owes.event).trans (congrArg (· ++ _) took.traces.o)

/-- Settles O37: after two bytes RX is in a decoder phase, so the token discards the frame; handing the fault over
leaves RX where the whole frame is received. -/
theorem truncatedFrameIsDiscardedAndTheNextDecoded : Obligations.TruncatedFrameIsDiscardedAndTheNextDecoded := by
  unfold Obligations.TruncatedFrameIsDiscardedAndTheNextDecoded
  intro s cut whole k w rest wf ph idle shortCut pos short hk less kind script
  have taken : ((encodeFrame Config.params cut).take k).length = k :=
    List.length_take_of_le (by rw [length_encodeFrame]; exact less.le)
  obtain ⟨u, took, holds⟩ := (holds_nil ph idle wf).takes_part shortCut script (List.take_prefix _ _)
    (by rw [taken, List.length_nil, Nat.zero_add]; exact less)
  obtain ⟨v, discarded, ph', idle', wf', fault, offered⟩ :=
    holds.cut_short (by rw [List.nil_append, taken]; exact hk) kind took.script
  have resumed : run (k + 2) s = .next v := by
    rw [defaultParametersGiveThisHardware, runFor_add (taken ▸ took.run), discarded]
  obtain ⟨-, t, received, events, phase, idle'', -, -, script'⟩ :=
    wholeFrameIsReceived v whole rest wf' ph' idle' pos short offered
  refine ⟨t, by rw [Nat.add_assoc (k + 2), run_add resumed, received], ?_, phase, idle'', script'⟩
  rw [events, fault, took.traces.o, List.append_assoc]
  rfl

end Sys2Proof.Machine

namespace Sys2Proof.Machine

section FaultEntry

variable {p : Config.Params} {i : Instr} {s t : State} {c : Cause} {ph : RxPhase}

/-! ## The entry of a fault of RX (R150, R151, R155) -/

theorem oPend_of_startPayload (pends : (startPayload s).oPend = .fault) : s.oPend = .fault := by
  rcases startPayload_cases s with ⟨-, e⟩ | ⟨-, e⟩ <;> rw [e] at pends
  · cases pends
  · exact pends

theorem oPend_of_payloadNext (pends : (payloadNext s).oPend = .fault) : s.oPend = .fault := by
  rcases payloadNext_cases s with ⟨-, e⟩ | ⟨-, e⟩ <;> rw [e] at pends
  · cases pends
  · exact pends

/-- An effect that ends with a fault pending began with one, or is the entry of the fault its operation raises. -/
theorem Effect.pends_fault (effect : Effect p i s t) (pends : t.oPend = .fault) :
    s.oPend = .fault ∨ ∃ c, i.raises? = some c ∧ t = raiseRx c s := by
  cases i
  case observe | acqFault | emit | encReset => exact .inl ((effect.rxSame_of_ofEnc rfl).pend ▸ pends)
  case wire => obtain ⟨-, rfl⟩ := effect; exact .inl pends
  case seek1Byte | seek2Byte | cntLoByte => cases effect; exact .inl pends
  case cntHiByte => cases effect; exact .inl (oPend_of_startPayload pends :)
  case payloadByte =>
    rcases effect with ⟨-, rfl⟩ | ⟨-, -, rfl⟩
    all_goals exact .inl (oPend_of_payloadNext pends :)
  case handoff => obtain ⟨e, -, rfl⟩ := effect; cases pends
  case rxReset => cases effect; cases pends
  case reservedRxKind3 => cases effect
  case seekTimeout | seekEos | decTimeout | decEos => exact .inr ⟨_, rfl, effect⟩

theorem seeking_iff : ph.seeking ↔ ph = .seek1 ∨ ph = .seek2 := by cases ph <;> simp [RxPhase.seeking]

/-- The codes 1 and 2 are those of the operations selected while seeking, 3 and 4 of those selected while decoding. -/
theorem raised_le_two_iff_seeking (raises : i.raises? = some c) (selected : i.selectedIn ph) :
    c.toNat ≤ 2 ↔ ph.seeking := by
  cases i
  case seekTimeout | seekEos => cases raises; exact iff_of_true (by decide) selected
  case decTimeout | decEos => cases raises; exact iff_of_false (by decide) (by simpa [Instr.selectedIn] using selected)
  all_goals cases raises

end FaultEntry

/-- Settles O30: a fault comes to be pending by its entry `raiseRx` alone, and the phase selects the class of its code. -/
theorem faultEntryChangesThreeRegisters : Obligations.FaultEntryChangesThreeRegisters := by
  unfold Obligations.FaultEntryChangesThreeRegisters
  intro i s t h pends before
  rcases exec_next h with ⟨-, rfl⟩ | ⟨on, effect⟩
  · exact absurd pends before
  · obtain ⟨c, raises, entry⟩ := (effect.pends_fault pends).resolve_left before
    exact ⟨c, raises, (raised_le_two_iff_seeking raises (selectedIn_of_enabled on)).trans seeking_iff, entry⟩

end Sys2Proof.Machine

namespace Sys2Proof.Machine

section Reset

variable {s t : State}

/-! ## The two resets (R180 to R183) -/

/-- In ACCUM, `s` is the one open channel of ENC. -/
theorem encPorts_of_accum (accum : s.encPhase = .accum) :
    encHalted s = false ∧ sReady false s = true ∧ txValid false s = false := by
  simp [encHalted, sReady, txValid, accum]

/-- With nothing pending, `rx` is open and no event is offered. -/
theorem rxPorts_of_none (idle : s.oPend = .none) : rxReady false s = true ∧ oValid false s = false := by
  simp [rxReady, oValid, idle]

/-- A reset operation is enabled in every phase and answers its effect. -/
theorem exec_reset_of_effect {i : Instr} (reset : i = .encReset ∨ i = .rxReset) (effect : Effect Config.params i s t) :
    exec i s = .next t := by
  rw [exec_eq_execFor]
  refine execFor_of_effect ?_ effect
  rcases reset with rfl | rfl <;> rfl

end Reset

/-- Settles O14: what ENC shows after the reset, it shows for being in ACCUM. -/
theorem encResetRestartsTheEncoder : Obligations.EncResetRestartsTheEncoder := by
  unfold Obligations.EncResetRestartsTheEncoder
  intro s
  obtain ⟨running, takes, -⟩ := encPorts_of_accum (s := { s with encPhase := .accum, encWr := 0, encRd := 0 }) rfl
  exact ⟨_, exec_reset_of_effect (.inl rfl) rfl, rfl, running, takes⟩

/-- Settles O33: what RX shows after the reset, it shows for having nothing pending. -/
theorem rxResetRestartsTheReceiver : Obligations.RxResetRestartsTheReceiver := by
  unfold Obligations.RxResetRestartsTheReceiver
  intro s
  exact ⟨_, exec_reset_of_effect (.inr rfl) rfl, rfl, rxPorts_of_none rfl⟩

/-- Settles O44: the registers have R183's values by definition, and the ports show them as after either reset. -/
theorem resetLeavesTheSpecifiedValues : Obligations.ResetLeavesTheSpecifiedValues := by
  unfold Obligations.ResetLeavesTheSpecifiedValues
  obtain ⟨running, takes, puts⟩ := encPorts_of_accum (s := State.reset) rfl
  exact ⟨rfl, rfl, rfl, rfl, rfl, running, takes, puts, rxPorts_of_none rfl⟩

end Sys2Proof.Machine
